-- ==== Sys2Proof/Word.lean ====
section
/-! DEFINITION. The word formats of the source (spec/30_encoding.md R60) as records with the source's own names,
and the command word. Widths are fixed (spec/00_scope.md R10). -/

namespace Sys2Proof

/-- One command word, the whole of a request (R64). -/
abbrev Cmd := BitVec 8

/-- DataWord `[d1, d2, d3, d4]` (R60). -/
structure DataWord where
  d1 : Bool
  d2 : Bool
  d3 : Bool
  d4 : Bool
deriving DecidableEq, Repr

/-- A 7-bit sequence at positions 1..7: `bk` is position k, that is index k-1 (R12, R13, R60). -/
structure Word7 where
  b1 : Bool
  b2 : Bool
  b3 : Bool
  b4 : Bool
  b5 : Bool
  b6 : Bool
  b7 : Bool
deriving DecidableEq, Repr

/-- SyndromeVector `[s1, s2, s3]` (R60). -/
structure Syndrome where
  s1 : Bool
  s2 : Bool
  s3 : Bool
deriving DecidableEq, Repr

/-- `DecodeResult: { dataBits, syndromeBits, errorPosition: 0..7, correctedCodeword }` (R65). -/
structure DecodeResult where
  dataBits : DataWord
  syndromeBits : Syndrome
  errorPosition : Fin 8
  correctedCodeword : Word7
deriving DecidableEq, Repr

/-- Element-wise `⊕` of two DataWords (R80, R93). -/
def DataWord.xor (a b : DataWord) : DataWord :=
  ⟨a.d1 ^^ b.d1, a.d2 ^^ b.d2, a.d3 ^^ b.d3, a.d4 ^^ b.d4⟩

/-- Element-wise `⊕` of two 7-bit words (R80, R93). -/
def Word7.xor (a b : Word7) : Word7 :=
  ⟨a.b1 ^^ b.b1, a.b2 ^^ b.b2, a.b3 ^^ b.b3, a.b4 ^^ b.b4, a.b5 ^^ b.b5, a.b6 ^^ b.b6, a.b7 ^^ b.b7⟩

end Sys2Proof
end

