-- ==== Sys2Proof/Machine/Operands.lean ====
section
/-! DEFINITION. Operand forms: the normalisation of an element to its low bit, and the packings of the word
formats onto the D, W, S and E buses (spec/30_encoding.md R61 to R63, R66). `X[i]` is bit i, bit 0 the least
significant (spec/00_scope.md R14). -/

namespace Sys2Proof

/-- `value & 1` of an element passed as an integer (R15, R66): true for an odd value. -/
def lowBit (value : Int) : Bool := value % 2 == 1

/-- A bit read as the integer 0 or 1 (R15). -/
def bitVal (b : Bool) : Nat := if b then 1 else 0

/-- A DataWord from four integer elements, each normalised (R66). -/
def DataWord.ofInts (d1 d2 d3 d4 : Int) : DataWord := ⟨lowBit d1, lowBit d2, lowBit d3, lowBit d4⟩

/-- A 7-bit word from seven integer elements, each normalised (R66). -/
def Word7.ofInts (b1 b2 b3 b4 b5 b6 b7 : Int) : Word7 :=
  ⟨lowBit b1, lowBit b2, lowBit b3, lowBit b4, lowBit b5, lowBit b6, lowBit b7⟩

/-- D[3] = d1, D[2] = d2, D[1] = d3, D[0] = d4 (R61). -/
def DataWord.toBus (d : DataWord) : BitVec 4 :=
  BitVec.ofBool d.d1 ++ BitVec.ofBool d.d2 ++ BitVec.ofBool d.d3 ++ BitVec.ofBool d.d4

/-- The DataWord on the D bus (R61). -/
def DataWord.ofBus (D : BitVec 4) : DataWord := ⟨D[3], D[2], D[1], D[0]⟩

/-- W[k-1] = position k (R62). -/
def Word7.toBus (w : Word7) : BitVec 7 :=
  BitVec.ofBool w.b7 ++ BitVec.ofBool w.b6 ++ BitVec.ofBool w.b5 ++ BitVec.ofBool w.b4 ++ BitVec.ofBool w.b3
    ++ BitVec.ofBool w.b2 ++ BitVec.ofBool w.b1

/-- The 7-bit sequence on the W bus (R62). -/
def Word7.ofBus (W : BitVec 7) : Word7 := ⟨W[0], W[1], W[2], W[3], W[4], W[5], W[6]⟩

/-- S[0] = s1, S[1] = s2, S[2] = s3 (R63). -/
def Syndrome.toBus (s : Syndrome) : BitVec 3 :=
  BitVec.ofBool s.s3 ++ BitVec.ofBool s.s2 ++ BitVec.ofBool s.s1

/-- The syndrome on the S bus (R63). -/
def Syndrome.ofBus (S : BitVec 3) : Syndrome := ⟨S[0], S[1], S[2]⟩

/-- E holds errorPosition as an unsigned number (R63). -/
def positionToBus (e : Fin 8) : BitVec 3 := BitVec.ofNat 3 e.val

/-- The error position on the E bus (R63). -/
def positionOfBus (E : BitVec 3) : Fin 8 := ⟨E.toNat, E.isLt⟩

/-- The element at index i (0-based), position i+1 (R13). -/
def Word7.get (w : Word7) : Fin 7 → Bool
  | 0 => w.b1
  | 1 => w.b2
  | 2 => w.b3
  | 3 => w.b4
  | 4 => w.b5
  | 5 => w.b6
  | 6 => w.b7

/-- `flip(c, i)`: index i inverted, every other element unchanged (R15, R117). -/
def Word7.flip (c : Word7) : Fin 7 → Word7
  | 0 => { c with b1 := !c.b1 }
  | 1 => { c with b2 := !c.b2 }
  | 2 => { c with b3 := !c.b3 }
  | 3 => { c with b4 := !c.b4 }
  | 4 => { c with b5 := !c.b5 }
  | 5 => { c with b6 := !c.b6 }
  | 6 => { c with b7 := !c.b7 }

/-- The elements of a DataWord in the source's order, as written in lists (R12, R72). -/
def DataWord.elements (d : DataWord) : List Nat := [bitVal d.d1, bitVal d.d2, bitVal d.d3, bitVal d.d4]

/-- The elements of a 7-bit word in position order (R12, R72). -/
def Word7.elements (w : Word7) : List Nat :=
  [bitVal w.b1, bitVal w.b2, bitVal w.b3, bitVal w.b4, bitVal w.b5, bitVal w.b6, bitVal w.b7]

/-- The elements of a syndrome (R12, R72). -/
def Syndrome.elements (s : Syndrome) : List Nat := [bitVal s.s1, bitVal s.s2, bitVal s.s3]

/-- `nib([d1,d2,d3,d4]) = 8*d1 + 4*d2 + 2*d3 + d4` (spec/41_host_simulator.md R114). -/
def DataWord.nib (d : DataWord) : Nat := 8 * bitVal d.d1 + 4 * bitVal d.d2 + 2 * bitVal d.d3 + bitVal d.d4

/-- `dataword(n) = [(n>>3)&1, (n>>2)&1, (n>>1)&1, n&1]` (spec/41_host_simulator.md R114). -/
def DataWord.ofNibble (n : Nat) : DataWord := ⟨n.testBit 3, n.testBit 2, n.testBit 1, n.testBit 0⟩

end Sys2Proof
end

