-- ==== Sys2Proof/Syntax.lean ====
section
/-! DEFINITION. The block's instructions: one constructor for each row of spec/opcode_table.json. -/

namespace Sys2Proof

/-- A request, decoded (spec/30_encoding.md R64, R69). -/
inductive Instr where
  /-- ENCODE. `ignored` is CMD[6:4], which the block ignores (R67) and the encoder gives back (log entry 17). -/
  | encode (ignored : BitVec 3) (data : DataWord)
  /-- DECODE of any 7-bit word (R86). -/
  | decode (received : Word7)
deriving DecidableEq, Repr

end Sys2Proof
end

