-- ==== Sys2Proof/Decode.lean ====
section
/-! DEFINITION. The command-word decoder (spec/30_encoding.md R64, R69), total on all 256 words (R68), the
reading of a byte sequence that rejects by name what is no whole word, and after them the encoder, written from
the same table. -/

namespace Sys2Proof

/-- The whole decoder: CMD[7] selects, CMD[3:0] is D, CMD[6:0] is W (R64, R69). -/
def decodeCmd (cmd : Cmd) : Instr :=
  if cmd[7] then .decode (Word7.ofBus (cmd.extractLsb' 0 7))
  else .encode (cmd.extractLsb' 4 3) (DataWord.ofBus (cmd.extractLsb' 0 4))

/-- Why a byte sequence gives no request. -/
inductive DecodeError where
  /-- The sequence holds no whole command word: every request carries one whole 8-bit word (R43, R70). -/
  | noWholeWord
deriving DecidableEq, Repr

/-- The next request of a sequence of command words and the rest of the sequence (R70: every request is one
8-bit word). -/
def decodeBytes : List Cmd → Except DecodeError (Instr × List Cmd)
  | [] => .error .noWholeWord
  | c :: rest => .ok (decodeCmd c, rest)

/-- The command word of an instruction (R64). -/
def encodeCmd : Instr → Cmd
  | .encode ignored data => 0#1 ++ ignored ++ data.toBus
  | .decode received => 1#1 ++ received.toBus

/-- The instruction the decoder reads from the `nbits` bits `w`, numbered as spec/opcode_table.json numbers them;
none where `nbits` is over 8 or `w` does not fit in a command word. Fewer than 8 bits are taken as the low bits of a
command word whose other bits are 0: DESIGN CHOICE, since a request is one whole 8-bit word (R43, R70) and a partial
one is never presented (R136; log entry 22). -/
def decodeTableWord (nbits w : Nat) : Option Instr :=
  if nbits ≤ 8 ∧ w < 2 ^ 8 then
    match decodeBytes [BitVec.ofNat 8 w] with
    | .ok (i, _) => some i
    | .error _ => none
  else none

end Sys2Proof
end

