-- ==== Sys2Proof/Machine/Flags.lean ====
section
/-! DEFINITION. The block has no flag register (spec/10_state.md R23). What stands for flags is the status that
DECODE reports in its response: the syndrome and the error position (spec/40_codec.md R82, R83). -/

namespace Sys2Proof

/-- The syndrome of a received word: s1 checks positions 1,3,5,7, s2 checks 2,3,6,7, s3 checks 4,5,6,7 (R82). -/
def Word7.syndrome (b : Word7) : Syndrome :=
  ⟨b.b1 ^^ b.b3 ^^ b.b5 ^^ b.b7, b.b2 ^^ b.b3 ^^ b.b6 ^^ b.b7, b.b4 ^^ b.b5 ^^ b.b6 ^^ b.b7⟩

/-- `s1 + 2*s2 + 4*s3`, an integer in 0..7 (R83). -/
def Syndrome.errorPosition (s : Syndrome) : Fin 8 :=
  ⟨bitVal s.s1 + 2 * bitVal s.s2 + 4 * bitVal s.s3, by
    rcases s with ⟨_ | _, _ | _, _ | _⟩ <;> decide⟩

end Sys2Proof
end

