-- ==== Sys2Proof/Machine/Hamming.lean ====
section
/-! DEFINITION. The arithmetic of ENCODE and DECODE, one definition for each sub-function the spec names
(spec/40_codec.md R81, R84, R85, R86). -/

namespace Sys2Proof

/-- The Codeword of a DataWord (R81). -/
def encodeWord (d : DataWord) : Word7 :=
  let p1 := d.d1 ^^ d.d2 ^^ d.d4
  let p2 := d.d1 ^^ d.d3 ^^ d.d4
  let p3 := d.d2 ^^ d.d3 ^^ d.d4
  ⟨p1, p2, d.d1, p3, d.d2, d.d3, d.d4⟩

/-- The correction of R84: position 0 changes nothing, position 1..7 flips index errorPosition - 1. -/
def Word7.correct (received : Word7) : Fin 8 → Word7
  | 0 => received
  | ⟨k + 1, h⟩ => received.flip ⟨k, by omega⟩

/-- The bits at positions 3, 5, 6 and 7 (R85). R124 reads the uncorrected word the same way. -/
def Word7.dataBits (cc : Word7) : DataWord := ⟨cc.b3, cc.b5, cc.b6, cc.b7⟩

/-- DECODE of a received word (R86). -/
def decodeWord (b : Word7) : DecodeResult :=
  let s := b.syndrome
  let e := s.errorPosition
  let cc := b.correct e
  ⟨cc.dataBits, s, e, cc⟩

end Sys2Proof
end

