-- ==== Sys2Proof/Config.lean ====
section
/-! DEFINITION. What the spec leaves to a parameter (spec/00_scope.md R11), and the model's free value. -/

namespace Sys2Proof

/-- LUMA_ARITH (spec/41_host_simulator.md R112, spec/92_eei_decisions.md D17). -/
inductive LumaArith where
  | exact
  | binary64
deriving DecidableEq, Repr

/-- LUMA_WEIGHTS: three coefficients `r/den`, `g/den`, `b/den` over one denominator (R112; log entry 8). -/
structure LumaWeights where
  r : Nat
  g : Nat
  b : Nat
  den : Nat
  den_pos : 0 < den
deriving DecidableEq, Repr

/-- The default coefficients (0.299, 0.587, 0.114), as the source prints them (R112). -/
def LumaWeights.default : LumaWeights := ⟨299, 587, 114, 1000, by decide⟩

/-- The two luma parameters of a run (R112, R132). -/
structure LumaParams where
  arith : LumaArith
  weights : LumaWeights
deriving DecidableEq, Repr

/-- LUMA_ARITH = exact and the default LUMA_WEIGHTS (R11, R112). -/
def LumaParams.default : LumaParams := ⟨.exact, .default⟩

/-- FREE VALUE: the error index that draw source `stream` gives as its draw number `n` (from 0) once the draws
supplied for it are used up. The spec says any value in 0..6 (R116, U5); nothing fixes it (log entry 5). -/
opaque Config.freeDraw (stream n : Nat) : Fin 7

end Sys2Proof
end

