-- ==== Sys2Proof/Machine/HostSyntax.lean ====
section
/-! DEFINITION. The assembler's lines (spec/30_encoding.md R71), the host-program notation
(spec/41_host_simulator.md R137) and the raw inputs of a run (R110, R111), as they are written,
before any check. -/

namespace Sys2Proof.Machine

/-- One line of assembly (R71), its operand as written. -/
inductive AsmLine where
  /-- `ENCODE [d1,d2,d3,d4]` -/
  | encodeList (elements : List Nat)
  /-- `ENCODE #n` -/
  | encodeImm (n : Nat)
  /-- `DECODE [b1,b2,b3,b4,b5,b6,b7]` -/
  | decodeList (elements : List Nat)
  /-- `DECODE #w` -/
  | decodeImm (w : Nat)
  /-- `.cmd 0xNN` -/
  | rawCmd (c : Nat)
deriving DecidableEq, Repr

/-- A host variable, named by a number (log entry 18). -/
abbrev Var := Nat

/-- The fields of a DECODE result record (R65). -/
inductive Field where
  | dataBits
  | syndromeBits
  | errorPosition
  | correctedCodeword
deriving DecidableEq, Repr

/-- What a statement may read: a variable, or `v.f` (R137; log entry 12). -/
inductive Expr where
  | var (v : Var)
  | field (v : Var) (f : Field)
deriving DecidableEq, Repr

/-- The index of a `FLIP u, i`: a number as written, or something to read (R137; P2 and P3 show both). -/
inductive IndexOperand where
  | literal (i : Nat)
  | read (e : Expr)
deriving DecidableEq, Repr

/-- One statement of a host program (R137; log entry 12). -/
inductive Stmt where
  /-- `v <- ENCODE <operand>`, `v <- DECODE <operand>` and `v <- .cmd 0xNN`: one block request. -/
  | request (v : Var) (line : AsmLine)
  /-- `v <- ENCODE e`, `e` a DataWord the host holds. -/
  | encodeOf (v : Var) (e : Expr)
  /-- `v <- DECODE e`, `e` a 7-bit word the host holds. -/
  | decodeOf (v : Var) (e : Expr)
  /-- `v <- FLIP u, i`: the channel, a host step (R117). -/
  | flip (v : Var) (u : Expr) (i : IndexOperand)
  /-- `v <- DRAW` (R116). -/
  | draw (v : Var)
  /-- `v <- e` (R15, R137). -/
  | bind (v : Var) (e : Expr)
deriving DecidableEq, Repr

/-- A number the host is given. The spec's real numbers are rationals here (log entry 6). -/
inductive HostNumber where
  | finite (q : Rat)
  | nan
  | posInf
  | negInf
deriving DecidableEq, Repr

/-- A pixel as supplied: three channel values, unchecked (R110). -/
structure RawPixel where
  r : HostNumber
  g : HostNumber
  b : HostNumber
deriving DecidableEq, Repr

/-- An image as supplied, its pixels in row-major order, unchecked (R110; log entry 7). -/
structure RawImage where
  width : HostNumber
  height : HostNumber
  pixels : List RawPixel
deriving DecidableEq, Repr

/-- The selection `(x, y, w, h)` as supplied, unchecked (R110). -/
structure Selection where
  x : HostNumber
  y : HostNumber
  w : HostNumber
  h : HostNumber
deriving DecidableEq, Repr

/-- A selection whose four values are finite numbers (R110, R111). -/
structure Rect where
  x : Rat
  y : Rat
  w : Rat
  h : Rat
deriving DecidableEq, Repr

end Sys2Proof.Machine
end

