-- ==== Sys2Proof/Machine/State.lean ====
section
/-! DEFINITION. The state: the interface values of one block operation (spec/10_state.md R28) and the host's state
(spec/41_host_simulator.md). The block itself has no state (R20). INVENTORY.md lists every field with its rule and
its reset value. -/

namespace Sys2Proof.Machine

/-- The response to one request, as the record R65 allows. -/
inductive Response where
  /-- ENCODE's codeword, RSP[6:0]. -/
  | codeword (w : Word7)
  /-- DECODE's four fields, RSP[16:0]. -/
  | result (r : DecodeResult)
deriving DecidableEq, Repr

/-- An error-index source (R116): the draws supplied for it, the number that names it, and how many draws have
been taken (log entry 5). -/
structure DrawSource where
  supplied : List (Fin 7)
  stream : Nat
  taken : Nat
deriving DecidableEq, Repr

/-- A pixel: three channel values in 0..255 (R110, R125; no alpha, D24). -/
structure Pixel where
  r : BitVec 8
  g : BitVec 8
  b : BitVec 8
deriving DecidableEq, Repr

/-- An image of `width` × `height` pixels in row-major order (R110, R126; log entry 7). -/
structure Image where
  width : Nat
  height : Nat
  pixels : List Pixel
deriving DecidableEq, Repr

/-- The nibble selector of a record (R118, R119). -/
inductive Selector where
  | high
  | low
deriving DecidableEq, Repr

/-- CodewordRecord (R119); `x`, `y` are absolute image coordinates (R120). -/
structure CodewordRecord where
  x : Nat
  y : Nat
  nibble : Selector
  dataWord : DataWord
  codeword : Word7
  injectedErrorIndex : Fin 7
  receivedWord : Word7
  decodeResult : DecodeResult
deriving DecidableEq, Repr

/-- RunStatistics: four unbounded counters (R122, D23). -/
structure RunStatistics where
  totalBlocks : Nat
  totalCodewords : Nat
  errorsIntroduced : Nat
  errorsCorrected : Nat
deriving DecidableEq, Repr

/-- The result set of a run, in the order R127 lists it. -/
structure ResultSet where
  correctedPixels : Image
  corruptedPixels : Image
  records : List CodewordRecord
  stats : RunStatistics
deriving DecidableEq, Repr

/-- The outcome of a run (R110). -/
inductive RunOutcome where
  | ok (results : ResultSet)
  | regionTooSmall (results : ResultSet)
deriving DecidableEq, Repr

/-- A pixel of the region with its absolute position (R115, R120). -/
structure Site where
  x : Nat
  y : Nat
  pixel : Pixel
deriving DecidableEq, Repr

/-- The nibble of the current pixel that is being processed; the low one carries the received word and the
DECODE result that the high one left for R123 and R124. -/
inductive Half where
  | high
  | low (received : Word7) (result : DecodeResult)
deriving DecidableEq, Repr

/-- The line of R118 that comes next, with what the lines before it obtained. -/
inductive RunPhase where
  /-- `cw <- ENCODE dw` is to be presented. -/
  | present
  /-- The codeword is awaited; then the draw, the flip and `dr <- DECODE rw`. -/
  | awaitCodeword
  /-- The DECODE result is awaited; then the record, the statistics and the pixel. -/
  | awaitResult (codeword : Word7) (index : Fin 7) (received : Word7)
deriving DecidableEq, Repr

/-- A run in progress (R115 to R126). -/
structure RunState where
  luma : LumaParams
  source : DrawSource
  todo : List Site
  half : Half
  phase : RunPhase
  results : ResultSet
deriving DecidableEq, Repr

/-- A value a host program's variable holds (R137). -/
inductive HostValue where
  | word (w : Word7)
  | result (r : DecodeResult)
  | index (i : Fin 7)
  | dataWord (d : DataWord)
  | syndrome (s : Syndrome)
  | position (e : Fin 8)
deriving DecidableEq, Repr

/-- The host's variables, most recently bound first. -/
abbrev Vars := List (Var × HostValue)

/-- The host's state (R110 to R137, R174). -/
structure HostState where
  image : Option RawImage
  selection : Option Selection
  source : Option DrawSource
  luma : LumaParams
  run : Option RunState
  outcome : Option RunOutcome
  program : List Stmt
  waiting : Option Var
  vars : Vars
deriving DecidableEq, Repr

/-- A request that another requester than the host has made of the block (R47, R157, R160; log entry 24). -/
structure OtherRequest where
  requester : Nat
  cmd : Cmd
deriving DecidableEq, Repr

/-- The response to another requester's request, for that requester to read (R47, R160; log entry 24). -/
structure OtherAnswer where
  requester : Nat
  response : Response
deriving DecidableEq, Repr

/-- The machine: the host's command bus and response bus, the host, and of other requesters that share the block the
requests not answered yet and the responses not read yet, each oldest first. -/
structure State where
  cmd : Option Cmd
  rsp : Option Response
  host : HostState
  others : List OtherRequest
  answers : List OtherAnswer
deriving DecidableEq, Repr

/-- Why the machine stops with a fault. -/
inductive Fault where
  /-- Raised by `State.readResponse`, and `State.readAnswer`, the reading of a response when there is none (R30, R172, U1).
  Safe: the spec says that reading it is a fault (log entry 2). -/
  | responseNotAvailable
  /-- Raised by the host's run when the response it reads is not of the kind it asked for, which R177 rules out.
  Safe: only a state that no run reaches, or a command word put on the host's own bus in mid-run, leads there
  (log entries 14 and 21). -/
  | responseMismatch
deriving DecidableEq, Repr

/-- Why the machine gives a case no meaning. -/
inductive Refusal where
  /-- An instruction not modelled yet. No arm of this model raises it. Safe. -/
  | notModelled (mnemonic : String)
  /-- Raised at the start of a run whose inputs break a precondition (R111). Safe: the spec refuses the run. -/
  | preconditionBroken
  /-- Raised by a statement with an operand outside its stated range or of the wrong length, which the assembler
  refuses (R71). Safe. -/
  | syntaxError
  /-- Raised by a statement that reads a variable or a field that is not there or not of the needed kind, which
  the spec gives no meaning (log entry 13). Safe. -/
  | illFormedStatement
  /-- Raised by DRAW when the host has no error-index source (log entry 15). Safe. -/
  | noDrawSource
deriving DecidableEq, Repr

/-- The host before anything has been supplied to it (R173, R174; log entry 3). -/
def HostState.reset : HostState where
  image := none
  selection := none
  source := none
  luma := .default
  run := none
  outcome := none
  program := []
  waiting := none
  vars := []

/-- After reset no request has been made by anyone, so the response bus has no value (R30, R172; log entry 3). -/
def State.reset : State where
  cmd := none
  rsp := none
  host := .reset
  others := []
  answers := []

end Sys2Proof.Machine
end

