-- ==== Sys2Proof/Machine/Ops.lean ====
section
/-! DEFINITION. The named operations on the state: the two buses of the block, the draw, the host's variables, and
the result set of a run. The block has no memory (spec/20_memory.md R40) and takes no exception
(spec/60_exceptions.md R150, R155), so there is no operation for either. -/

namespace Sys2Proof.Machine

/-- Present a command word on the host's command bus (R64, R136). A command word presented while another still stands
unanswered on that bus replaces it: DESIGN CHOICE, since a host makes one synchronous request at a time and the spec
gives this case no meaning (R28, R131; log entry 21). Other requesters have `State.request`. -/
def State.present (s : State) (c : Cmd) : State := { s with cmd := some c }

/-- The block takes the request off the command bus (R28). -/
def State.takeRequest (s : State) : State := { s with cmd := none }

/-- The block gives its response (R65). A response still unread on the host's response bus is replaced: DESIGN CHOICE,
since a host reads the response to each request before it makes the next and the spec gives this case no meaning (R28,
R131; log entry 21). -/
def State.respond (s : State) (r : Response) : State := { s with rsp := some r }

/-- Read the response bus and leave it without a response; a fault where it holds none (R30, R172; log entry 2). -/
def State.readResponse (s : State) : Except Fault (Response × State) :=
  match s.rsp with
  | some r => .ok (r, { s with rsp := none })
  | none => .error .responseNotAvailable

/-- Draw number `n` (from 0) of a source: the supplied one, or a free value once they are used up (R116; log
entry 5). -/
def DrawSource.at (src : DrawSource) (n : Nat) : Fin 7 := (src.supplied[n]?).getD (Config.freeDraw src.stream n)

/-- `draw_index()`: the next integer in 0..6 and the source after it (R116). -/
def DrawSource.draw (src : DrawSource) : Fin 7 × DrawSource :=
  (src.at src.taken, { src with taken := src.taken + 1 })

/-- The value a variable holds, if any (R137). -/
def Vars.lookup (vars : Vars) (v : Var) : Option HostValue :=
  match vars with
  | [] => none
  | (u, x) :: rest => if u = v then some x else Vars.lookup rest v

/-- Bind a variable; a later binding hides an earlier one (R137). -/
def Vars.bind (vars : Vars) (v : Var) (x : HostValue) : Vars := (v, x) :: vars

/-- The pixel at (x, y), where the image has one (R110). -/
def Image.at (img : Image) (x y : Nat) : Option Pixel :=
  if x < img.width ∧ y < img.height then img.pixels[y * img.width + x]? else none

/-- Write the pixel at (x, y) (R125). -/
def Image.write (img : Image) (x y : Nat) (p : Pixel) : Image :=
  if x < img.width ∧ y < img.height then { img with pixels := img.pixels.set (y * img.width + x) p } else img

/-- A flat gray pixel, R = G = B (R125). -/
def Pixel.flat (v : Nat) : Pixel := ⟨BitVec.ofNat 8 v, BitVec.ofNat 8 v, BitVec.ofNat 8 v⟩

/-- The four counters at the start of a run (R122, R173). -/
def RunStatistics.zero : RunStatistics := ⟨0, 0, 0, 0⟩

/-- The counters after one more codeword with this DECODE result (R118, R122). -/
def RunStatistics.count (st : RunStatistics) (dr : DecodeResult) : RunStatistics where
  totalBlocks := st.totalBlocks + 1
  totalCodewords := st.totalCodewords + 1
  errorsIntroduced := st.errorsIntroduced + 1
  errorsCorrected := if dr.errorPosition > 0 then st.errorsCorrected + 1 else st.errorsCorrected

/-- The result set at the start of a run: copies of the image, no record, zero counters (R126, R130, R173). -/
def ResultSet.fresh (image : Image) : ResultSet := ⟨image, image, [], .zero⟩

/-- Append a record and count it (R118). -/
def ResultSet.addRecord (rs : ResultSet) (entry : CodewordRecord) : ResultSet :=
  { rs with records := rs.records ++ [entry], stats := rs.stats.count entry.decodeResult }

/-- Record number `k` of a result set, counted from 1 for inspection (R121). -/
def ResultSet.inspect (rs : ResultSet) : Nat → Option CodewordRecord
  | 0 => none
  | k + 1 => rs.records[k]?

/-- A luma sample put together from two nibbles, `16 * hi + lo` (R123, R124). -/
def reassemble (hi lo : DataWord) : Nat := 16 * hi.nib + lo.nib

/-- Write one pixel of both output buffers, from the received words and DECODE results of its two nibbles:
the corrected data bits (R123), and the received, uncorrected bits at the data positions (R124, R125). -/
def ResultSet.writePixel (rs : ResultSet) (x y : Nat) (rwHigh : Word7) (drHigh : DecodeResult) (rwLow : Word7)
    (drLow : DecodeResult) : ResultSet :=
  { rs with
    correctedPixels := rs.correctedPixels.write x y (.flat (reassemble drHigh.dataBits drLow.dataBits))
    corruptedPixels := rs.corruptedPixels.write x y (.flat (reassemble rwHigh.dataBits rwLow.dataBits)) }

end Sys2Proof.Machine
end

