-- ==== Sys2Proof/Machine/Codec.lean ====
section
/-! DEFINITION. The meanings of the two instructions (spec/40_codec.md R81, R86). Each reads only its operand and
writes only the response (R80); none can fail (R68, R150). -/

namespace Sys2Proof.Machine

/-- ENCODE (R81): the response is the codeword of the DataWord; CMD[6:4] are ignored (R67). -/
def execEncode (_ignored : BitVec 3) (data : DataWord) (s : State) : Host.Outcome State Fault Refusal :=
  .next (s.respond (.codeword (encodeWord data)))

/-- DECODE (R86): the response is the four fields of the DECODE result. -/
def execDecode (received : Word7) (s : State) : Host.Outcome State Fault Refusal :=
  .next (s.respond (.result (decodeWord received)))

end Sys2Proof.Machine
end

