-- ==== Sys2Proof/Machine/Dispatch.lean ====
section
/-! DEFINITION. One arm for each instruction. -/

namespace Sys2Proof.Machine

def exec (i : Instr) (s : State) : Host.Outcome State Fault Refusal :=
  match i with
  | .encode ignored data => Sys2Proof.Machine.execEncode ignored data s
  | .decode received => Sys2Proof.Machine.execDecode received s

end Sys2Proof.Machine
end

