-- ==== Sys2Proof/Machine/Assembler.lean ====
section
/-! DEFINITION. The assembler (spec/30_encoding.md R71): a line gives a command word, or is refused. -/

namespace Sys2Proof.Machine

/-- A list of the stated length with every element 0 or 1 (R71). -/
def bitList (length : Nat) (elements : List Nat) : Bool :=
  elements.length == length && elements.all (fun b => b ≤ 1)

/-- The operand is in its stated range, a list has the right length; otherwise the line is a syntax error (R71). -/
def AsmLine.inRange : AsmLine → Bool
  | .encodeList elements => bitList 4 elements
  | .encodeImm n => n < 16
  | .decodeList elements => bitList 7 elements
  | .decodeImm w => w < 128
  | .rawCmd c => c < 256

/-- The DataWord a list of elements writes, d1 first (R12, R66, R71). -/
def dataWordOfList : List Nat → Option DataWord
  | [d1, d2, d3, d4] => some (.ofInts d1 d2 d3 d4)
  | _ => none

/-- The 7-bit word a list of elements writes, position 1 first (R12, R66, R71). -/
def word7OfList : List Nat → Option Word7
  | [b1, b2, b3, b4, b5, b6, b7] => some (.ofInts b1 b2 b3 b4 b5 b6 b7)
  | _ => none

/-- ENCODE's command word with 0 in the ignored bits (R67, R71, R136). -/
def encodeRequest (d : DataWord) : Cmd := encodeCmd (.encode 0 d)

/-- DECODE's command word, `0x80 | W` (R71, R136). -/
def decodeRequest (w : Word7) : Cmd := encodeCmd (.decode w)

/-- The command word of a line; none for a syntax error (R71). -/
def assemble (line : AsmLine) : Option Cmd :=
  if line.inRange then
    match line with
    | .encodeList elements => (dataWordOfList elements).map encodeRequest
    | .encodeImm n => some (encodeRequest (.ofBus (BitVec.ofNat 4 n)))
    | .decodeList elements => (word7OfList elements).map decodeRequest
    | .decodeImm w => some (decodeRequest (.ofBus (BitVec.ofNat 7 w)))
    | .rawCmd c => some (BitVec.ofNat 8 c)
  else none

end Sys2Proof.Machine
end

