-- ==== Sys2Proof/Machine/Bus.lean ====
section
/-! DEFINITION. The bus-level views of a response: the flat response words (spec/30_encoding.md R65), the block as
the function from a command word to a response (spec/10_state.md R28), the two-port form (R74), and the list
notation of results (R72). -/

namespace Sys2Proof.Machine

/-- A response as the flat word RSP: 7 bits for ENCODE, 17 for DECODE (R65). -/
inductive RspWord where
  | encode (rsp : BitVec 7)
  | decode (rsp : BitVec 17)
deriving DecidableEq, Repr

/-- `RSP[16:0] = (D, E, S, W)` from the most significant end (R65). -/
def decodeResultToBus (r : DecodeResult) : BitVec 17 :=
  r.dataBits.toBus ++ positionToBus r.errorPosition ++ r.syndromeBits.toBus ++ r.correctedCodeword.toBus

/-- The four fields of a 17-bit response: bits 16:13, 12:10, 9:7 and 6:0 (R65). -/
def decodeResultOfBus (RSP : BitVec 17) : DecodeResult :=
  ⟨DataWord.ofBus (RSP.extractLsb' 13 4), Syndrome.ofBus (RSP.extractLsb' 7 3),
    positionOfBus (RSP.extractLsb' 10 3), Word7.ofBus (RSP.extractLsb' 0 7)⟩

/-- The flat word of a response (R65). -/
def Response.toBus : Response → RspWord
  | .codeword w => .encode w.toBus
  | .result r => .decode (decodeResultToBus r)

/-- The response a flat word carries (R65). -/
def RspWord.response : RspWord → Response
  | .encode rsp => .codeword (Word7.ofBus rsp)
  | .decode rsp => .result (decodeResultOfBus rsp)

/-- What the block answers to an instruction (R80, R87). -/
def answer : Instr → Response
  | .encode _ data => .codeword (encodeWord data)
  | .decode received => .result (decodeWord received)

/-- The block as a function from CMD to RSP, on the buses (R28). -/
def blockRsp (c : Cmd) : RspWord := (answer (decodeCmd c)).toBus

/-- The ENCODE port group: a 4-bit D input and a 7-bit W output (R74). -/
def encodePort (D : BitVec 4) : BitVec 7 := (encodeWord (DataWord.ofBus D)).toBus

/-- The outputs of the DECODE port group (R74). -/
structure DecodePort where
  D : BitVec 4
  E : BitVec 3
  S : BitVec 3
  W : BitVec 7
deriving DecidableEq, Repr

/-- The DECODE port group: a 7-bit W input and the four result fields as outputs (R74). -/
def decodePort (W : BitVec 7) : DecodePort :=
  let r := decodeWord (Word7.ofBus W)
  ⟨r.dataBits.toBus, positionToBus r.errorPosition, r.syndromeBits.toBus, r.correctedCodeword.toBus⟩

/-- A response as it is written (R72): a codeword's list, or dataBits, syndromeBits, errorPosition and
correctedCodeword. -/
inductive ResponseText where
  | codeword (elements : List Nat)
  | result (dataBits syndromeBits : List Nat) (errorPosition : Nat) (correctedCodeword : List Nat)
deriving DecidableEq, Repr

/-- The list notation of a response (R72). -/
def Response.text : Response → ResponseText
  | .codeword w => .codeword w.elements
  | .result r =>
    .result r.dataBits.elements r.syndromeBits.elements r.errorPosition.val r.correctedCodeword.elements

end Sys2Proof.Machine
end

