-- ==== Sys2Proof/Machine/HostProgram.lean ====
section
/-! DEFINITION. Host programs (spec/41_host_simulator.md R137): what a statement does, its steps on the machine, and
a program as a function on the host's variables and error-index source. -/

namespace Sys2Proof.Machine

/-- A field of a DECODE result record (R137). -/
def Field.read (f : Field) (r : DecodeResult) : HostValue :=
  match f with
  | .dataBits => .dataWord r.dataBits
  | .syndromeBits => .syndrome r.syndromeBits
  | .errorPosition => .position r.errorPosition
  | .correctedCodeword => .word r.correctedCodeword

/-- The value of a variable or of `v.f`; none where it is not there (R137). -/
def Expr.eval (vars : Vars) : Expr → Option HostValue
  | .var v => vars.lookup v
  | .field v f =>
    match vars.lookup v with
    | some (.result r) => some (f.read r)
    | _ => none

/-- The value that a response gives the variable of its request: "v gets the Codeword", "v gets the DECODE result
record" (R137). -/
def Response.value : Response → HostValue
  | .codeword w => .word w
  | .result r => .result r

/-- What a statement asks the host to do. -/
inductive Action where
  /-- Present a command word; the response goes to the variable. -/
  | request (v : Var) (c : Cmd)
  /-- Bind a variable, with the error-index source after it. -/
  | assign (v : Var) (x : HostValue) (source : Option DrawSource)
  /-- No meaning. -/
  | refuse (r : Refusal)
deriving DecidableEq, Repr

/-- The index of a FLIP, in 0..6 (R117): a literal over 6 is refused as a syntax error, and of
the values the host holds only an index is one, never an error position: DESIGN CHOICE (log entry 13). -/
def IndexOperand.eval (vars : Vars) : IndexOperand → Except Refusal (Fin 7)
  | .literal i => if h : i < 7 then .ok ⟨i, h⟩ else .error .syntaxError
  | .read e =>
    match e.eval vars with
    | some (.index i) => .ok i
    | _ => .error .illFormedStatement

/-- What a statement does, given the host's variables and source (R71, R116, R117, R137; log entries 12, 13, 15). -/
def Stmt.action (vars : Vars) (source : Option DrawSource) : Stmt → Action
  | .request v line =>
    match assemble line with
    | some c => .request v c
    | none => .refuse .syntaxError
  | .encodeOf v e =>
    match e.eval vars with
    | some (.dataWord d) => .request v (encodeRequest d)
    | _ => .refuse .illFormedStatement
  | .decodeOf v e =>
    match e.eval vars with
    | some (.word w) => .request v (decodeRequest w)
    | _ => .refuse .illFormedStatement
  | .flip v u i =>
    match u.eval vars, i.eval vars with
    | some (.word w), .ok i => .assign v (.word (w.flip i)) source
    | some (.word _), .error r => .refuse r
    | _, _ => .refuse .illFormedStatement
  | .draw v =>
    match source with
    | some src => .assign v (.index src.draw.1) (some src.draw.2)
    | none => .refuse .noDrawSource
  | .bind v e =>
    match e.eval vars with
    | some x => .assign v x source
    | none => .refuse .illFormedStatement

/-- Run one statement on the machine: present its request, or do its host step (R137; log entry 16). A statement that is
refused is refused in its own step, after the statements before it have run: DESIGN CHOICE, since the spec does not say
whether a syntax error turns the whole program away before it runs (R71; log entry 23). -/
def runStmt (st : Stmt) (s : State) : Host.Outcome State Fault Refusal :=
  match st.action s.host.vars s.host.source with
  | .request v c => .next { s.present c with host := { s.host with waiting := some v } }
  | .assign v x source => .next { s with host := { s.host with vars := s.host.vars.bind v x, source := source } }
  | .refuse r => .refused r

/-- The host reads the response to its program's request into the variable (R137). A response of either kind is bound:
where a command word put on the host's own bus has replaced the program's, that may be the other kind than the statement
asked for. DESIGN CHOICE, since the spec gives this case no meaning (R131, R177; log entry 21). -/
def collectInto (v : Var) (s : State) : Host.Outcome State Fault Refusal :=
  match s.readResponse with
  | .ok (r, t) => .next { t with host := { t.host with vars := t.host.vars.bind v r.value, waiting := none } }
  | .error f => .fault f

/-- The host state a program works on: its variables and the error-index source. -/
abbrev ProgramEnv := Vars × Option DrawSource

/-- A statement as a function on the host's variables and source; a request gets the block's answer (R137). -/
def Stmt.eval (env : ProgramEnv) (st : Stmt) : Option ProgramEnv :=
  match st.action env.1 env.2 with
  | .request v c => some (env.1.bind v (answer (decodeCmd c)).value, env.2)
  | .assign v x source => some (env.1.bind v x, source)
  | .refuse _ => none

/-- A program as a function: its statements in order (R137). -/
def evalProgram (env : ProgramEnv) : List Stmt → Option ProgramEnv
  | [] => some env
  | st :: rest =>
    match st.eval env with
    | some env' => evalProgram env' rest
    | none => none

end Sys2Proof.Machine
end

