-- ==== Sys2Proof/Machine/HostInput.lean ====
section
/-! DEFINITION. The preconditions of a run (spec/41_host_simulator.md R111), as the reading of its raw inputs: a
value where the input meets them, none where it does not. -/

namespace Sys2Proof.Machine

/-- An integer value, if the number is one. -/
def HostNumber.int? : HostNumber → Option Int
  | .finite q => if q.den = 1 then some q.num else none
  | .nan => none
  | .posInf => none
  | .negInf => none

/-- A channel value: an integer in 0..255 (R111). -/
def HostNumber.channel? (n : HostNumber) : Option (BitVec 8) :=
  match n.int? with
  | some v => if 0 ≤ v ∧ v ≤ 255 then some (BitVec.ofInt 8 v) else none
  | none => none

/-- An image size: a non-negative integer (R111). -/
def HostNumber.size? (n : HostNumber) : Option Nat :=
  match n.int? with
  | some v => if 0 ≤ v then some v.toNat else none
  | none => none

/-- A selection value: a finite real number (R111). -/
def HostNumber.real? : HostNumber → Option Rat
  | .finite q => some q
  | .nan => none
  | .posInf => none
  | .negInf => none

/-- A pixel with all three channels in range (R111). -/
def RawPixel.pixel? (p : RawPixel) : Option Pixel :=
  match p.r.channel?, p.g.channel?, p.b.channel? with
  | some r, some g, some b => some ⟨r, g, b⟩
  | _, _, _ => none

/-- All pixels of a list, if each is in range (R111). -/
def readPixels : List RawPixel → Option (List Pixel)
  | [] => some []
  | p :: ps =>
    match p.pixel?, readPixels ps with
    | some q, some qs => some (q :: qs)
    | _, _ => none

/-- The image, if its sizes are non-negative integers and its channels are in range (R111), with one pixel for each
place (R110; log entry 7). -/
def RawImage.image? (img : RawImage) : Option Image :=
  match img.width.size?, img.height.size?, readPixels img.pixels with
  | some w, some h, some ps => if ps.length = w * h then some ⟨w, h, ps⟩ else none
  | _, _, _ => none

/-- The selection, if its four values are finite (R111). -/
def Selection.rect? (sel : Selection) : Option Rect :=
  match sel.x.real?, sel.y.real?, sel.w.real?, sel.h.real? with
  | some x, some y, some w, some h => some ⟨x, y, w, h⟩
  | _, _, _, _ => none

end Sys2Proof.Machine
end

