-- ==== Sys2Proof/Machine/Luma.lean ====
section
/-! DEFINITION. Luma (spec/41_host_simulator.md R112) under both values of LUMA_ARITH, and the nibble split (R113). -/

namespace Sys2Proof.Machine

/-- `round(wr*r + wg*g + wb*b)` in rational arithmetic, ties up: the floor of the weighted sum plus 1/2. With the
default weights this is `floor((299*r + 587*g + 114*b + 500) / 1000)` (R112). -/
def exactLuma (w : LumaWeights) (p : Pixel) : Nat :=
  (2 * (w.r * p.r.toNat + w.g * p.g.toNat + w.b * p.b.toNat) + w.den) / (2 * w.den)

/-- The unit that non-negative finite binary64 values are counted in here: 1 is `2 ^ 1074` units, so that every
such value is a whole number of units (K1; log entry 10). -/
def b64Unit : Nat := 2 ^ 1074

/-- `n / d` rounded to the nearest natural number, ties to the even one. -/
def roundTiesToEven (n d : Nat) : Nat :=
  let q := n / d
  let r := n % d
  if 2 * r < d then q else if d < 2 * r then q + 1 else if q % 2 = 0 then q else q + 1

/-- `n / d` units rounded to binary64: to 53 significant bits, to nearest, ties to even; a value under `2 ^ 53`
units keeps every unit (K1; log entry 10). -/
def b64Round (n d : Nat) : Nat :=
  let shift := Nat.log2 (n / d) - 52
  roundTiesToEven n (d * 2 ^ shift) * 2 ^ shift

/-- The binary64 value of the coefficient `n / d` (R112). -/
def b64Coefficient (n d : Nat) : Nat := b64Round (n * b64Unit) d

/-- A binary64 product with an integer channel value (R112). -/
def b64Scale (a : Nat) (channel : Nat) : Nat := b64Round (a * channel) 1

/-- A binary64 sum (R112). -/
def b64Add (a b : Nat) : Nat := b64Round (a + b) 1

/-- The nearest integer, ties toward +∞ (R112, K1). -/
def b64MathRound (a : Nat) : Nat := (2 * a + b64Unit) / (2 * b64Unit)

/-- `(wr*r + wg*g) + wb*b` in binary64, left to right, then rounded (R112). -/
def binary64Luma (w : LumaWeights) (p : Pixel) : Nat :=
  b64MathRound
    (b64Add
      (b64Add (b64Scale (b64Coefficient w.r w.den) p.r.toNat) (b64Scale (b64Coefficient w.g w.den) p.g.toNat))
      (b64Scale (b64Coefficient w.b w.den) p.b.toNat))

/-- `gray` of a pixel (R112). -/
def lumaGray (l : LumaParams) (p : Pixel) : Nat :=
  match l.arith with
  | .exact => exactLuma l.weights p
  | .binary64 => binary64Luma l.weights p

/-- `hi = (gray >> 4) & 0xF` and `lo = gray & 0xF` (R113). -/
def nibbleOf (gray : Nat) : Selector → Nat
  | .high => (gray >>> 4) &&& 0xF
  | .low => gray &&& 0xF

end Sys2Proof.Machine
end

