-- ==== Sys2Proof/Machine/Region.lean ====
section
/-! DEFINITION. The clamped region (spec/41_host_simulator.md R128) and the order its pixels are visited in (R115). -/

namespace Sys2Proof.Machine

/-- A clamped region: the pixels with sx ≤ x < sx + sw and sy ≤ y < sy + sh (R115, R128). -/
structure Region where
  sx : Nat
  sy : Nat
  sw : Nat
  sh : Nat
deriving DecidableEq, Repr

/-- `max(0, floor(v))` (R128). -/
def clampStart (v : Rat) : Nat := (max 0 v.floor).toNat

/-- `max(0, min(size - start, floor(v)))` (R128). -/
def clampExtent (size start : Nat) (v : Rat) : Nat := (max 0 (min ((size : Int) - start) v.floor)).toNat

/-- The clamped region of a selection in an image (R128). -/
def clampRegion (img : Image) (sel : Rect) : Region where
  sx := clampStart sel.x
  sy := clampStart sel.y
  sw := clampExtent img.width (clampStart sel.x) sel.w
  sh := clampExtent img.height (clampStart sel.y) sel.h

/-- The region has no pixel (R129). -/
def Region.degenerate (rg : Region) : Bool := rg.sw == 0 || rg.sh == 0

/-- The coordinates of a region, row by row from the top, each row from the left (R115). -/
def Region.coords (rg : Region) : List (Nat × Nat) :=
  (List.range rg.sh).flatMap fun dy => (List.range rg.sw).map fun dx => (rg.sx + dx, rg.sy + dy)

/-- The pixels of a region in the order of R115, each with its absolute position (R120). -/
def Region.sites (rg : Region) (img : Image) : List Site :=
  rg.coords.filterMap fun c => (img.at c.1 c.2).map fun p => ⟨c.1, c.2, p⟩

end Sys2Proof.Machine
end

