-- ==== Sys2Proof/Machine/RunOnRegion.lean ====
section
/-! DEFINITION. `runOnRegion` as a function from its inputs to its Outcome (spec/41_host_simulator.md R110 to R129),
with ENCODE and DECODE as the functions of spec/40_codec.md. The machine of Step.lean takes the same run step by
step, through the block. -/

namespace Sys2Proof.Machine

/-- The nibble of a pixel that a half processes (R113). -/
def siteNibble (luma : LumaParams) (site : Site) (sel : Selector) : DataWord :=
  DataWord.ofNibble (nibbleOf (lumaGray luma site.pixel) sel)

/-- The record of one nibble: encode, flip the drawn index, decode (R118, R119). -/
def nibbleRecord (site : Site) (sel : Selector) (dw : DataWord) (i : Fin 7) : CodewordRecord :=
  let cw := encodeWord dw
  let rw := cw.flip i
  ⟨site.x, site.y, sel, dw, cw, i, rw, decodeWord rw⟩

/-- What a run carries from pixel to pixel: the result set and the error-index source. -/
abbrev RunAcc := ResultSet × DrawSource

/-- One pixel: the high nibble, then the low, then both output pixels (R115, R118, R125). -/
def pixelStep (luma : LumaParams) (acc : RunAcc) (site : Site) : RunAcc :=
  let drawHigh := acc.2.draw
  let drawLow := drawHigh.2.draw
  let high := nibbleRecord site .high (siteNibble luma site .high) drawHigh.1
  let low := nibbleRecord site .low (siteNibble luma site .low) drawLow.1
  let rs := (acc.1.addRecord high).addRecord low
  (rs.writePixel site.x site.y high.receivedWord high.decodeResult low.receivedWord low.decodeResult, drawLow.2)

/-- All pixels of a list, in order. -/
def runSites (luma : LumaParams) (acc : RunAcc) (sites : List Site) : RunAcc :=
  sites.foldl (pixelStep luma) acc

/-- `runOnRegion(image, selection, source) -> Outcome` for inputs that meet the preconditions (R110, R127, R129). -/
def runOnRegion (luma : LumaParams) (img : Image) (sel : Rect) (src : DrawSource) : RunOutcome :=
  let rg := clampRegion img sel
  if rg.degenerate then .regionTooSmall (.fresh img)
  else .ok (runSites luma (.fresh img, src) (rg.sites img)).1

end Sys2Proof.Machine
end

