-- ==== Sys2Proof/Machine/HostRun.lean ====
section
/-! DEFINITION. The host's run, step by step through the block (spec/41_host_simulator.md R118): how it starts
(R111, R129, R174), the lines of each nibble, and how it ends (R127, R131). Each definition is one host step. -/

namespace Sys2Proof.Machine

/-- The selector of the nibble being processed (R118). -/
def Half.selector : Half → Selector
  | .high => .high
  | .low _ _ => .low

/-- The DataWord of the nibble being processed (R113, R114). -/
def RunState.dataWord (r : RunState) (site : Site) : DataWord := siteNibble r.luma site r.half.selector

/-- The state with this run in progress. -/
def State.withRun (s : State) (r : RunState) : State := { s with host := { s.host with run := some r } }

/-- The state with the run ended and its outcome there (R119, R127). -/
def State.endRun (s : State) (out : RunOutcome) : State :=
  { s with host := { s.host with run := none, outcome := some out } }

/-- `cw <- ENCODE dw` is presented (R118, R136). -/
def presentEncode (r : RunState) (site : Site) (s : State) : State :=
  (s.withRun { r with phase := .awaitCodeword }).present (encodeRequest (r.dataWord site))

/-- The codeword is read; `i <- draw_index()`, `rw <- flip(cw, i)`, and `dr <- DECODE rw` is presented (R118). -/
def flipAndPresentDecode (r : RunState) (cw : Word7) (s : State) : State :=
  let i := r.source.draw.1
  let rw := cw.flip i
  (s.withRun { r with source := r.source.draw.2, phase := .awaitResult cw i rw }).present (decodeRequest rw)

/-- The run after the DECODE result of a nibble: record and statistics (R118); after the high nibble the low one
follows (R115), after the low one the pixel is written (R125) and the next pixel follows. -/
def RunState.finishNibble (r : RunState) (site : Site) (rest : List Site) (cw : Word7) (i : Fin 7) (rw : Word7)
    (dr : DecodeResult) : RunState :=
  let entry : CodewordRecord := ⟨site.x, site.y, r.half.selector, r.dataWord site, cw, i, rw, dr⟩
  let rs := r.results.addRecord entry
  match r.half with
  | .high => { r with half := .low rw dr, phase := .present, results := rs }
  | .low rwHigh drHigh =>
    { r with half := .high, phase := .present, todo := rest,
             results := rs.writePixel site.x site.y rwHigh drHigh rw dr }

/-- One host step of a run in progress. With no pixel left the run ends with `Ok` (R127, R131). A response of the
other kind, which R177 rules out, is a fault (log entry 14). -/
def runStep (r : RunState) (s : State) : Host.Outcome State Fault Refusal :=
  match r.todo with
  | [] => .next (s.endRun (.ok r.results))
  | site :: rest =>
    match r.phase with
    | .present => .next (presentEncode r site s)
    | .awaitCodeword =>
      match s.readResponse with
      | .ok (.codeword cw, t) => .next (flipAndPresentDecode r cw t)
      | .ok (.result _, _) => .fault .responseMismatch
      | .error f => .fault f
    | .awaitResult cw i rw =>
      match s.readResponse with
      | .ok (.result dr, t) => .next (t.withRun (r.finishNibble site rest cw i rw dr))
      | .ok (.codeword _, _) => .fault .responseMismatch
      | .error f => .fault f

/-- The start of a run uses up its three inputs and keeps nothing from an earlier run (R130, R173, R174; log
entry 11). -/
def State.takeInputs (s : State) : State :=
  { s with host := { s.host with image := none, selection := none, source := none, outcome := none } }

/-- Start a run: refused where an input breaks a precondition (R111); at once `RegionTooSmall` for a degenerate
region (R129); otherwise the run begins with a fresh result set (R173). -/
def startRun (img : RawImage) (sel : Selection) (src : DrawSource) (s : State) : Host.Outcome State Fault Refusal :=
  match img.image?, sel.rect? with
  | some image, some rect =>
    let rg := clampRegion image rect
    if rg.degenerate then .next (s.takeInputs.endRun (.regionTooSmall (.fresh image)))
    else
      .next (s.takeInputs.withRun
        { luma := s.host.luma, source := src, todo := rg.sites image, half := .high, phase := .present,
          results := .fresh image })
  | _, _ => .refused .preconditionBroken

/-- A run starts only when the image, the selection and the error-index source are all there (R174); until then an
idle host does nothing (log entry 3). -/
def startOrIdle (s : State) : Host.Outcome State Fault Refusal :=
  match s.host.image, s.host.selection, s.host.source with
  | some img, some sel, some src => startRun img sel src s
  | _, _, _ => .next s

end Sys2Proof.Machine
end

