-- ==== Sys2Proof/Machine/Requesters.lean ====
section
/-! DEFINITION. Other requesters that share the block with the host, one request at a time (spec/60_exceptions.md R157,
R160): how they make a request, how the block answers it, and how they read the response. No request and no response is
lost, and the host's own request and response stay as they are (spec/20_memory.md R47; log entry 24). -/

namespace Sys2Proof.Machine

/-- A requester makes a request; it waits behind the requests made before it (R47, R160, R177). -/
def State.request (s : State) (p : OtherRequest) : State := { s with others := s.others ++ [p] }

/-- The response that `t` holds goes to requester `q`, and the host's response bus is again as it was. -/
def State.deliver (t : State) (q : Nat) (kept : Option Response) : State :=
  match t.rsp with
  | some r => { t with rsp := kept, answers := t.answers ++ [⟨q, r⟩] }
  | none => { t with rsp := kept }

/-- The block answers another requester's request by the same meanings as the host's, and the response goes to that
requester (R47, R157, R160). -/
def serveOther (p : OtherRequest) (s : State) : Host.Outcome State Fault Refusal :=
  match exec (decodeCmd p.cmd) { s with rsp := none } with
  | .next t => .next (t.deliver p.requester s.rsp)
  | .fault f => .fault f
  | .refused r => .refused r

/-- The oldest response for requester `q`, and the others without it. -/
def takeAnswer (q : Nat) : List OtherAnswer → Option (Response × List OtherAnswer)
  | [] => none
  | a :: rest =>
    if a.requester = q then some (a.response, rest) else (takeAnswer q rest).map fun p => (p.1, a :: p.2)

/-- A requester reads its oldest response; a fault where there is none (R172, R177; log entry 2). -/
def State.readAnswer (s : State) (q : Nat) : Except Fault (Response × State) :=
  match takeAnswer q s.answers with
  | some (r, rest) => .ok (r, { s with answers := rest })
  | none => .error .responseNotAvailable

end Sys2Proof.Machine
end

