-- ==== Sys2Proof/Machine/Step.lean ====
section
/-! DEFINITION. One step of the machine: the block answers the request on the host's command bus, or, where there
is none, the oldest request of another requester, or, where there is none either, the host takes a step (log entries 1
and 24). -/

namespace Sys2Proof.Machine

/-- One host step: of the run in progress, else of the program in progress, else the start of a run whose inputs
are there (R131, R137, R174; log entry 1). -/
def hostStep (s : State) : Host.Outcome State Fault Refusal :=
  match s.host.run with
  | some r => runStep r s
  | none =>
    match s.host.waiting with
    | some v => collectInto v s
    | none =>
      match s.host.program with
      | st :: rest => runStmt st { s with host := { s.host with program := rest } }
      | [] => startOrIdle s

/-- One atomic step (R28, R43, R47, R176). -/
def step (s : State) : Host.Outcome State Fault Refusal :=
  match s.cmd with
  | some c => exec (decodeCmd c) s.takeRequest
  | none =>
    match s.others with
    | p :: rest => serveOther p { s with others := rest }
    | [] => hostStep s

/-- The command word `w` presented to the block, so that the very next step answers it (log entry 4). A
word of fewer than 8 bits is taken with zeros above it, and of one of more than 8 bits the low 8 are presented: DESIGN
CHOICE, since the spec has only whole 8-bit command words (R43, R70; log entry 22). -/
def State.withFetchWord (s : State) (nbits w : Nat) : State := s.present (BitVec.ofNat 8 (w % 2 ^ nbits))

end Sys2Proof.Machine
end

