-- ==== Sys2Proof/WellFormed.lean ====
section
/-! DEFINITION. Well-formedness. An `Instr` needs no check: its operands have the exact widths of the command word
and all 256 words are valid (spec/30_encoding.md R68), so its check answers true. Checks with something to refuse:
the assembler's lines (R71), the raw inputs of a run (spec/41_host_simulator.md R111), and the kinds of a host
program's operands (R137). -/

namespace Sys2Proof

/-- Every instruction is well formed (R68). -/
def Instr.wf : Instr → Bool
  | .encode _ _ => true
  | .decode _ => true

/-- The instructions the assembler's ENCODE and DECODE lines give: 0 in the ignored bits (R67, R71). -/
def Instr.assembled : Instr → Bool
  | .encode ignored _ => ignored == 0
  | .decode _ => true

namespace Machine

/-- The line is no syntax error (R71). -/
def AsmLine.wf (line : AsmLine) : Bool := line.inRange

/-- The image meets the preconditions (R111). -/
def RawImage.wf (img : RawImage) : Bool := img.image?.isSome

/-- The selection meets the preconditions (R111). -/
def Selection.wf (sel : Selection) : Bool := sel.rect?.isSome

/-- The kinds of host values (R137). -/
inductive Kind where
  | word
  | result
  | index
  | dataWord
  | syndrome
  | position
deriving DecidableEq, Repr

/-- The kinds of the variables in scope, most recent first. -/
abbrev Scope := List (Var × Kind)

/-- The kind of a variable in scope. -/
def Scope.lookup (sc : Scope) (v : Var) : Option Kind :=
  match sc with
  | [] => none
  | (u, k) :: rest => if u = v then some k else Scope.lookup rest v

/-- The kind of a field of a DECODE result (R65). -/
def Field.kind : Field → Kind
  | .dataBits => .dataWord
  | .syndromeBits => .syndrome
  | .errorPosition => .position
  | .correctedCodeword => .word

/-- The kind of what is read; `v.f` reads a field of a result (R137). -/
def Expr.kind? (sc : Scope) : Expr → Option Kind
  | .var v => sc.lookup v
  | .field v f => if sc.lookup v = some .result then some f.kind else none

/-- A flip index is 0..6 as written, or an index the host holds (R117). -/
def IndexOperand.wf (sc : Scope) : IndexOperand → Bool
  | .literal i => i < 7
  | .read e => e.kind? sc == some .index

/-- The kind of response a line's request gets: a codeword for ENCODE, a result for DECODE (R65); `.cmd` by its
bit 7 (R64). -/
def AsmLine.kind : AsmLine → Kind
  | .encodeList _ => .word
  | .encodeImm _ => .word
  | .decodeList _ => .result
  | .decodeImm _ => .result
  | .rawCmd c => if c < 128 then .word else .result

/-- The kind of the value a statement binds, where its operands are in range and of the right kinds; none
otherwise (R71, R117, R137). -/
def Stmt.kind? (sc : Scope) : Stmt → Option Kind
  | .request _ line => if line.wf then some line.kind else none
  | .encodeOf _ e => if e.kind? sc = some .dataWord then some .word else none
  | .decodeOf _ e => if e.kind? sc = some .word then some .result else none
  | .flip _ u i => if u.kind? sc = some .word ∧ i.wf sc then some .word else none
  | .draw _ => some .index
  | .bind _ e => e.kind? sc

/-- The variable a statement binds (R137). -/
def Stmt.target : Stmt → Var
  | .request v _ => v
  | .encodeOf v _ => v
  | .decodeOf v _ => v
  | .flip v _ _ => v
  | .draw v => v
  | .bind v _ => v

/-- Every statement of a program passes its check in the scope the ones before it leave. -/
def programWf (sc : Scope) : List Stmt → Bool
  | [] => true
  | st :: rest =>
    match st.kind? sc with
    | some k => programWf ((st.target, k) :: sc) rest
    | none => false

end Machine
end Sys2Proof
end

