-- ==== Sys2Proof/Safety.lean ====
section
/-! DEFINITION. What claims about the machine are stated in: the invariant of the machine, the preconditions of a run
written out, sequences of requests served by the block, the requests a run makes, and the programs' types and lengths. -/

namespace Sys2Proof.Machine

/-- A record is what R118 says of it: the codeword of its DataWord, one flip, the DECODE result. -/
def CodewordRecord.Faithful (e : CodewordRecord) : Prop :=
  e.codeword = encodeWord e.dataWord ∧ e.receivedWord = e.codeword.flip e.injectedErrorIndex ∧
    e.decodeResult = decodeWord e.receivedWord

/-- An image has one pixel for each place. -/
def Image.Full (img : Image) : Prop := img.pixels.length = img.width * img.height

/-- The two buffers have one size and are full, every record is faithful, and each counter is the number of records
(R122, R126, R133). -/
structure ResultSet.Coherent (rs : ResultSet) : Prop where
  corrected_full : rs.correctedPixels.Full
  corrupted_full : rs.corruptedPixels.Full
  same_width : rs.corruptedPixels.width = rs.correctedPixels.width
  same_height : rs.corruptedPixels.height = rs.correctedPixels.height
  faithful : ∀ e ∈ rs.records, e.Faithful
  counters : rs.stats = ⟨rs.records.length, rs.records.length, rs.records.length, rs.records.length⟩

/-- The result set of an outcome. -/
def RunOutcome.results : RunOutcome → ResultSet
  | .ok rs => rs
  | .regionTooSmall rs => rs

/-- What the low nibble's half carries is what the high nibble of that pixel left. -/
def Half.Coherent (luma : LumaParams) (site : Site) : Half → Prop
  | .high => True
  | .low rw dr => (∃ i, rw = (encodeWord (siteNibble luma site .high)).flip i) ∧ dr = decodeWord rw

/-- The request a run awaits the answer of is on the command bus, or its answer is on the response bus (R118, R177). -/
def RunPhase.Coherent (dw : DataWord) (cmd : Option Cmd) (rsp : Option Response) : RunPhase → Prop
  | .present => True
  | .awaitCodeword => cmd = some (encodeRequest dw) ∨ (cmd = none ∧ rsp = some (.codeword (encodeWord dw)))
  | .awaitResult cw i rw =>
    cw = encodeWord dw ∧ rw = cw.flip i ∧
      (cmd = some (decodeRequest rw) ∨ (cmd = none ∧ rsp = some (.result (decodeWord rw))))

/-- A run in progress agrees with the buses. -/
def RunState.Coherent (r : RunState) (cmd : Option Cmd) (rsp : Option Response) : Prop :=
  match r.todo with
  | [] => r.phase = .present
  | site :: _ => r.half.Coherent r.luma site ∧ r.phase.Coherent (r.dataWord site) cmd rsp

/-- The invariant: what the host awaits agrees with the buses, a run and a program never await at once, and every
result set is coherent. -/
structure State.Inv (s : State) : Prop where
  run_alone : ∀ r, s.host.run = some r → s.host.waiting = none
  run_coherent : ∀ r, s.host.run = some r → r.Coherent s.cmd s.rsp
  run_results : ∀ r, s.host.run = some r → r.results.Coherent
  waiting_answered : ∀ v, s.host.waiting = some v → s.cmd.isSome ∨ s.rsp.isSome
  outcome_results : ∀ out, s.host.outcome = some out → out.results.Coherent

/-- The machine stops here with a fault. -/
def Faults (s : State) : Prop := ∃ f, step s = .fault f

/-- The host has nothing in hand and the block no request from anyone. -/
structure State.Idle (s : State) : Prop where
  no_request : s.cmd = none
  no_others : s.others = []
  no_run : s.host.run = none
  not_waiting : s.host.waiting = none

/-- Channels are integers in 0..255, sizes are non-negative integers, and there is one pixel for each place (R110,
R111). -/
def RawImage.InRange (img : RawImage) : Prop :=
  ∃ w h : Nat, img.width = .finite w ∧ img.height = .finite h ∧ img.pixels.length = w * h ∧
    ∀ p ∈ img.pixels, ∃ r g b : Nat, r ≤ 255 ∧ g ≤ 255 ∧ b ≤ 255 ∧ p = ⟨.finite r, .finite g, .finite b⟩

/-- The four selection values are finite (R111). -/
def Selection.AllFinite (sel : Selection) : Prop :=
  ∃ x y w h : Rat, sel = ⟨.finite x, .finite y, .finite w, .finite h⟩

/-- A run of this image, selection and source is about to start. -/
structure State.ReadyToRun (s : State) (img : Image) (sel : Rect) (src : DrawSource) : Prop where
  idle : s.Idle
  no_program : s.host.program = []
  image : ∃ raw, s.host.image = some raw ∧ raw.image? = some img
  selection : ∃ raw, s.host.selection = some raw ∧ raw.rect? = some sel
  source : s.host.source = some src

/-- The steps a run over `n` pixels takes on the machine: its start, ten for each pixel, its end (log entry 16). -/
def runSteps (n : Nat) : Nat := 10 * n + 2

/-- Serve command words one after another: present one, let the block step, read the response (R136). -/
def serve (s : State) : List Cmd → Option (List Response × State)
  | [] => some ([], s)
  | c :: cs =>
    match step (s.present c) with
    | .next t =>
      match t.readResponse with
      | .ok (r, u) => (serve u cs).map fun out => (r :: out.1, out.2)
      | .error _ => none
    | .fault _ => none
    | .refused _ => none

/-- The command words of the host's that the block answers in the next `k` steps, in order. -/
def requestTrace (s : State) : Nat → List Cmd
  | 0 => []
  | k + 1 =>
    match step s with
    | .next t => s.cmd.toList ++ requestTrace t k
    | .fault _ => []
    | .refused _ => []

/-- The machine with the host as its only requester. -/
def State.alone (s : State) : State := { s with others := [], answers := [] }

/-- The response that a request gets of a block with no other request to answer (R47). -/
def OtherRequest.answer (p : OtherRequest) : OtherAnswer := ⟨p.requester, Machine.answer (decodeCmd p.cmd)⟩

/-- As many steps as there are lists of requests, the requests of each list made just before its step. -/
def runAmong : List (List OtherRequest) → State → Host.Outcome State Fault Refusal
  | [], s => .next s
  | ps :: more, s =>
    match step (ps.foldl State.request s) with
    | .next t => runAmong more t
    | .fault f => .fault f
    | .refused r => .refused r

/-- The words that three flips of a codeword give, one for each DataWord and each three indices (R90). -/
def tripleErrorWords : List Word7 :=
  (List.finRange 16).flatMap fun n => (List.finRange 7).flatMap fun i => (List.finRange 7).flatMap fun j =>
    (List.finRange 7).filterMap fun k =>
      if i < j ∧ j < k then some ((((encodeWord (.ofNibble n)).flip i).flip j).flip k) else none

/-- What a flip at an index does to the nibble at the data positions: nothing at a parity index, one bit at a data
index (R135). -/
def corruptionMask : Fin 7 → Nat
  | 0 => 0
  | 1 => 0
  | 2 => 8
  | 3 => 0
  | 4 => 4
  | 5 => 2
  | 6 => 1

/-- A point of a region (R115, R128). -/
def Region.Contains (rg : Region) (x y : Nat) : Prop :=
  rg.sx ≤ x ∧ x < rg.sx + rg.sw ∧ rg.sy ≤ y ∧ y < rg.sy + rg.sh

/-- The kind of a host value. -/
def HostValue.kind : HostValue → Kind
  | .word _ => .word
  | .result _ => .result
  | .index _ => .index
  | .dataWord _ => .dataWord
  | .syndrome _ => .syndrome
  | .position _ => .position

/-- Every variable in scope is bound to a value of its kind. -/
def Vars.Fits (vars : Vars) (sc : Scope) : Prop :=
  ∀ v k, sc.lookup v = some k → ∃ x, vars.lookup v = some x ∧ x.kind = k

/-- The steps a statement takes on the machine: a request is presented, answered and read (log entry 16). -/
def Stmt.steps : Stmt → Nat
  | .request _ _ => 3
  | .encodeOf _ _ => 3
  | .decodeOf _ _ => 3
  | .flip _ _ _ => 1
  | .draw _ => 1
  | .bind _ _ => 1

/-- The steps a program takes on the machine. -/
def programSteps (p : List Stmt) : Nat := (p.map Stmt.steps).sum

end Sys2Proof.Machine
end

