-- ==== Sys2Proof/Certificates/Slice0/Obligations.lean ====
section
/-! DEFINITION. The statements for the provers. Rule numbers are those of spec/; a statement marked in its docstring
as the model's choice rests on the log entry it names. -/

open Sys2Proof Sys2Proof.Machine

/-! ## The block -/

/-- A step with a command word on the bus is the meaning of the instruction the decoder reads from it, in the state
with the request taken: that the block moves before the host is the model's choice (log entry 1). `withFetchWord`
presents exactly that word: the model's choice of how a program comes to run (log entry 4). -/
def Obligations.StepRunsThePresentedCommandWord : Prop :=
  (∀ (s : State) (c : Cmd), s.cmd = some c → step s = exec (decodeCmd c) { s with cmd := none }) ∧
  (∀ (s : State) (w : Nat), w < 256 →
    step (s.withFetchWord 8 w) = exec (decodeCmd (BitVec.ofNat 8 w)) { s with cmd := none })

/-- Words written out from the command-word table decode to the instructions they stand for. The command word is the
spec's decision D3; that the second word's ignored bits CMD[6:4] are kept in the instruction is the model's choice (log
entry 17). -/
def Obligations.SpecWordsDecodeToTheirInstructions : Prop :=
  decodeCmd 0b00001011#8 = .encode 0 ⟨true, false, true, true⟩ ∧
  decodeCmd 0b01110001#8 = .encode 7 ⟨false, false, false, true⟩ ∧
  decodeCmd 0b11100100#8 = .decode ⟨false, false, true, false, false, true, true⟩ ∧
  decodeCmd 0b10000001#8 = .decode ⟨true, false, false, false, false, false, false⟩

/-- ENCODE completes in every state: the response is the codeword of R81's equations and nothing else changes. -/
def Obligations.EncodeCompletesWithTheCodeword : Prop :=
  ∀ (ignored : BitVec 3) (d : DataWord) (s : State),
    exec (.encode ignored d) s = .next { s with
      rsp := some (.codeword ⟨d.d1 ^^ d.d2 ^^ d.d4, d.d1 ^^ d.d3 ^^ d.d4, d.d1, d.d2 ^^ d.d3 ^^ d.d4, d.d2, d.d3,
        d.d4⟩) }

/-- R81 for every command word with bit 7 clear: the response's bus bits from CMD[3:0] alone, even parity over the
three groups, the corner cases and the example, and 16 distinct codewords. -/
def Obligations.EncodeRequestAnswersItsCodewordOnTheBus : Prop :=
  (∀ (s : State) (cmd : Cmd), s.cmd = some cmd → cmd[7] = false →
    ∃ w : Word7, step s = .next { s with cmd := none, rsp := some (.codeword w) } ∧
      (w.toBus[2] = cmd[3] ∧ w.toBus[4] = cmd[2] ∧ w.toBus[5] = cmd[1] ∧ w.toBus[6] = cmd[0]) ∧
      w.toBus[0] = (cmd[3] ^^ cmd[2] ^^ cmd[0]) ∧ w.toBus[1] = (cmd[3] ^^ cmd[1] ^^ cmd[0]) ∧
      w.toBus[3] = (cmd[2] ^^ cmd[1] ^^ cmd[0]) ∧
      (w.b1 ^^ w.b3 ^^ w.b5 ^^ w.b7) = false ∧ (w.b2 ^^ w.b3 ^^ w.b6 ^^ w.b7) = false ∧
      (w.b4 ^^ w.b5 ^^ w.b6 ^^ w.b7) = false) ∧
  blockRsp 0x00#8 = .encode 0x00#7 ∧ blockRsp 0x0F#8 = .encode 0x7F#7 ∧ blockRsp 0x0B#8 = .encode 0x66#7 ∧
  (∀ d d' : DataWord, encodeWord d = encodeWord d' → d = d')

/-- DECODE completes in every state and for every word, with the syndrome of R82, the error position of R83, the
correction of R84 and the data bits of R85; nothing but the response changes. -/
def Obligations.DecodeCompletesWithItsFourFields : Prop :=
  ∀ (b : Word7) (s : State), ∃ r : DecodeResult,
    exec (.decode b) s = .next { s with rsp := some (.result r) } ∧
    r.syndromeBits = ⟨b.b1 ^^ b.b3 ^^ b.b5 ^^ b.b7, b.b2 ^^ b.b3 ^^ b.b6 ^^ b.b7, b.b4 ^^ b.b5 ^^ b.b6 ^^ b.b7⟩ ∧
    (r.syndromeBits.s1 = (b.toBus[0] ^^ b.toBus[2] ^^ b.toBus[4] ^^ b.toBus[6]) ∧
      r.syndromeBits.s2 = (b.toBus[1] ^^ b.toBus[2] ^^ b.toBus[5] ^^ b.toBus[6]) ∧
      r.syndromeBits.s3 = (b.toBus[3] ^^ b.toBus[4] ^^ b.toBus[5] ^^ b.toBus[6])) ∧
    (r.errorPosition : Nat) =
      bitVal r.syndromeBits.s1 + 2 * bitVal r.syndromeBits.s2 + 4 * bitVal r.syndromeBits.s3 ∧
    ((r.errorPosition : Nat).testBit 0 = r.syndromeBits.s1 ∧ (r.errorPosition : Nat).testBit 1 = r.syndromeBits.s2 ∧
      (r.errorPosition : Nat).testBit 2 = r.syndromeBits.s3) ∧
    (r.errorPosition = 0 → r.correctedCodeword = b) ∧
    (∀ i : Fin 7, r.correctedCodeword.get i = (b.get i ^^ decide ((r.errorPosition : Nat) = i + 1))) ∧
    r.dataBits = ⟨r.correctedCodeword.get 2, r.correctedCodeword.get 4, r.correctedCodeword.get 5,
      r.correctedCodeword.get 6⟩

/-- DECODE on the buses, for every command word with bit 7 set: the 17-bit response's fields from CMD[6:0], and the
worked example. The bus packings are the spec's own decisions (D3 to D7). -/
def Obligations.DecodeRequestAnswersItsFieldsOnTheBus : Prop :=
  (∀ (s : State) (cmd : Cmd), s.cmd = some cmd → cmd[7] = true →
    ∃ (r : DecodeResult) (rsp : BitVec 17),
      step s = .next { s with cmd := none, rsp := some (.result r) } ∧ (Response.result r).toBus = .decode rsp ∧
      rsp[7] = (cmd[0] ^^ cmd[2] ^^ cmd[4] ^^ cmd[6]) ∧ rsp[8] = (cmd[1] ^^ cmd[2] ^^ cmd[5] ^^ cmd[6]) ∧
      rsp[9] = (cmd[3] ^^ cmd[4] ^^ cmd[5] ^^ cmd[6]) ∧
      rsp.extractLsb' 10 3 = rsp.extractLsb' 7 3 ∧
      (∀ i < 7, rsp.getLsbD i = (cmd.getLsbD i ^^ decide ((rsp.extractLsb' 10 3).toNat = i + 1))) ∧
      rsp[16] = rsp[2] ∧ rsp[15] = rsp[4] ∧ rsp[14] = rsp[5] ∧ rsp[13] = rsp[6]) ∧
  blockRsp 0xE4#8 = .decode 0x16966#17

/-- Every command word, in every state, is a valid request with a response, of the kind that bit 7 says: bit 7 selects
the operation by the spec's decision D3, and the response's form is its decision D7. -/
def Obligations.EveryCommandWordIsAnswered : Prop :=
  ∀ (s : State) (cmd : Cmd), ∃ r : Response,
    step (s.present cmd) = .next { s with cmd := none, rsp := some r } ∧
    ((∃ w, r = .codeword w) ↔ cmd[7] = false) ∧ ((∃ q, r = .result q) ↔ cmd[7] = true)

/-- ENCODE's answer does not depend on CMD[6:4]: the spec's decision D8 (log entry 17). -/
def Obligations.EncodeIgnoresTheUpperCommandBits : Prop :=
  ∀ (s : State) (cmd cmd' : Cmd), cmd[7] = false → cmd'[7] = false → cmd.extractLsb' 0 4 = cmd'.extractLsb' 0 4 →
    step (s.present cmd) = step (s.present cmd')

/-- R20: whatever the state and whatever was requested before, each request of a sequence gets the answer that its
command word alone determines, and serving it leaves the host and the other requesters' requests and responses as they
were. -/
def Obligations.ResponsesDependOnTheirRequestsAlone : Prop :=
  ∀ (cs : List Cmd) (s : State), ∃ t : State,
    serve s cs = some (cs.map (fun c => answer (decodeCmd c)), t) ∧ t.host = s.host ∧
      t.others = s.others ∧ t.answers = s.answers

/-- After reset there is no request and no response to read, and the first request gets the response that it gets in
any other state. The fault is the spec's decision D13 (log entry 2). -/
def Obligations.NoResponseBeforeTheFirstRequest : Prop :=
  State.reset.cmd = none ∧ State.reset.readResponse = .error .responseNotAvailable ∧
  ∀ (s : State) (c : Cmd), ∃ t u : State,
    step (State.reset.present c) = .next t ∧ step (s.present c) = .next u ∧ t.rsp = u.rsp ∧ t.rsp.isSome

/-- Without an error the round trip gives the data back; the valid codewords are the words of zero syndrome, and they
are the sixteen that the spec lists. -/
def Obligations.CodewordsAreTheZeroSyndromeWords : Prop :=
  (∀ (s : State) (d : DataWord), ∃ (t : State) (r : DecodeResult),
    step (s.present (decodeRequest (encodeWord d))) = .next t ∧ t.rsp = some (.result r) ∧ r.dataBits = d ∧
      r.errorPosition = 0) ∧
  (∀ w : Word7, w.syndrome = ⟨false, false, false⟩ ↔ ∃ d, encodeWord d = w) ∧
  (∀ w : Word7, (∃ d, encodeWord d = w) ↔
    w.toBus ∈ [0x00#7, 0x07#7, 0x19#7, 0x1E#7, 0x2A#7, 0x2D#7, 0x33#7, 0x34#7, 0x4B#7, 0x4C#7, 0x52#7, 0x55#7,
      0x61#7, 0x66#7, 0x78#7, 0x7F#7])

/-- R89: every single error is found and corrected. -/
def Obligations.SingleErrorsAreCorrected : Prop :=
  ∀ (s : State) (d : DataWord) (i : Fin 7), ∃ (t : State) (r : DecodeResult),
    step (s.present (decodeRequest ((encodeWord d).flip i))) = .next t ∧ t.rsp = some (.result r) ∧
      (r.errorPosition : Nat) = i + 1 ∧ r.correctedCodeword = encodeWord d ∧ r.dataBits = d

/-- Every double error is taken for a single error at a third position and gives another codeword with other data;
of the 560 triple errors 112 give error position 0. -/
def Obligations.DoubleErrorsAreMiscorrected : Prop :=
  (∀ (s : State) (d : DataWord) (i j : Fin 7), i ≠ j → ∃ (t : State) (r : DecodeResult),
    step (s.present (decodeRequest (((encodeWord d).flip i).flip j))) = .next t ∧ t.rsp = some (.result r) ∧
      r.errorPosition ≠ 0 ∧ (r.errorPosition : Nat) ≠ i + 1 ∧ (r.errorPosition : Nat) ≠ j + 1 ∧
      r.dataBits ≠ d ∧ r.correctedCodeword = encodeWord r.dataBits) ∧
  tripleErrorWords.length = 560 ∧
  (tripleErrorWords.filter fun w => (decodeWord w).errorPosition = 0).length = 112

/-- Decoding a corrected codeword again finds no error and gives the same data; every corrected codeword is a valid
one. -/
def Obligations.CorrectionIsIdempotent : Prop :=
  ∀ (s t : State) (b : Word7) (r : DecodeResult),
    step (s.present (decodeRequest b)) = .next t → t.rsp = some (.result r) →
    (∃ d, r.correctedCodeword = encodeWord d) ∧
    ∃ (u : State) (q : DecodeResult),
      step (t.present (decodeRequest r.correctedCodeword)) = .next u ∧ u.rsp = some (.result q) ∧
        q.errorPosition = 0 ∧ q.dataBits = r.dataBits

/-- Flipping position k changes the error position by XOR with k, for any word. -/
def Obligations.FlipXorsItsPositionIntoTheErrorPosition : Prop :=
  ∀ (w : Word7) (i : Fin 7),
    ((w.flip i).syndrome.errorPosition : Nat) = (w.syndrome.errorPosition : Nat) ^^^ ((i : Nat) + 1)

/-- ENCODE is linear over GF(2). -/
def Obligations.EncodeIsLinear : Prop :=
  (∀ a b : DataWord, encodeWord (a.xor b) = (encodeWord a).xor (encodeWord b)) ∧
  encodeWord ⟨false, false, false, false⟩ = ⟨false, false, false, false, false, false, false⟩

/-- The two-port form gives, for each operand, the response that the command word carrying it gets, 0 standing in ENCODE's
ignored bits (for the others see `EncodeIgnoresTheUpperCommandBits`). The two-port form and the command word are the
spec's decision D3, and the port functions beside the one machine are log entry 20. -/
def Obligations.TwoPortFormAnswersTheSame : Prop :=
  ∀ (s : State) (D : BitVec 4) (W : BitVec 7), ∃ (t u : State),
    step (s.present (0#4 ++ D)) = .next t ∧ t.rsp.map Response.toBus = some (.encode (encodePort D)) ∧
    step (s.present (1#1 ++ W)) = .next u ∧
      u.rsp.map Response.toBus =
        some (.decode ((decodePort W).D ++ (decodePort W).E ++ (decodePort W).S ++ (decodePort W).W))

/-- Decoder and encoder are inverse to each other, on every instruction and on every command word, and each
instruction's word carries the op bit of its row of the opcode table. That a decoded command word encodes to itself is
the model's choice: its ENCODE keeps the ignored bits CMD[6:4] (log entry 17). The command word is the spec's decision
D3. -/
def Obligations.DecoderAndEncoderAreInverse : Prop :=
  (∀ i : Instr, i.wf = true → decodeCmd (encodeCmd i) = i ∧ decodeTableWord 8 (encodeCmd i).toNat = some i) ∧
  (∀ c : Cmd, encodeCmd (decodeCmd c) = c) ∧
  (∀ ignored d, encodeCmd (.encode ignored d) &&& 0x80#8 = 0x00#8) ∧
  (∀ w, encodeCmd (.decode w) &&& 0x80#8 = 0x80#8)

/-- The assembler gives the words of R71's table, refuses every operand out of range or of the wrong length, and
only `.cmd` gives an ENCODE word with a bit set in CMD[6:4]. The assembly language is the spec's decision D9. -/
def Obligations.AssemblerGivesTheTablesWords : Prop :=
  (∀ d1 d2 d3 d4 : Nat, d1 ≤ 1 → d2 ≤ 1 → d3 ≤ 1 → d4 ≤ 1 →
    (assemble (.encodeList [d1, d2, d3, d4])).map BitVec.toNat = some (8 * d1 + 4 * d2 + 2 * d3 + d4)) ∧
  (∀ n, n < 16 → (assemble (.encodeImm n)).map BitVec.toNat = some n) ∧
  (∀ b1 b2 b3 b4 b5 b6 b7 : Nat, b1 ≤ 1 → b2 ≤ 1 → b3 ≤ 1 → b4 ≤ 1 → b5 ≤ 1 → b6 ≤ 1 → b7 ≤ 1 →
    (assemble (.decodeList [b1, b2, b3, b4, b5, b6, b7])).map BitVec.toNat =
      some (128 + 64 * b7 + 32 * b6 + 16 * b5 + 8 * b4 + 4 * b3 + 2 * b2 + b1)) ∧
  (∀ w, w < 128 → (assemble (.decodeImm w)).map BitVec.toNat = some (128 + w)) ∧
  (∀ c, c < 256 → (assemble (.rawCmd c)).map BitVec.toNat = some c) ∧
  (∀ l, assemble (.encodeList l) = none ↔ ¬(l.length = 4 ∧ ∀ b ∈ l, b ≤ 1)) ∧
  (∀ n, assemble (.encodeImm n) = none ↔ 16 ≤ n) ∧
  (∀ l, assemble (.decodeList l) = none ↔ ¬(l.length = 7 ∧ ∀ b ∈ l, b ≤ 1)) ∧
  (∀ w, assemble (.decodeImm w) = none ↔ 128 ≤ w) ∧
  (∀ c, assemble (.rawCmd c) = none ↔ 256 ≤ c) ∧
  (∀ line c, assemble line = some c → (∀ k, line ≠ .rawCmd k) → (decodeCmd c).assembled = true)

/-- R66: an element passed as an integer counts as its low bit, so that an element and its low bit give the same
word; on a bit it is the identity. -/
def Obligations.ElementsAreNormalisedToTheirLowBit : Prop :=
  (∀ v : Int, lowBit v = true ↔ ∃ k : Int, v = 2 * k + 1) ∧
  (∀ d1 d2 d3 d4 : Int, DataWord.ofInts d1 d2 d3 d4 = DataWord.ofInts (d1 % 2) (d2 % 2) (d3 % 2) (d4 % 2)) ∧
  (∀ b1 b2 b3 b4 b5 b6 b7 : Int, Word7.ofInts b1 b2 b3 b4 b5 b6 b7 =
    Word7.ofInts (b1 % 2) (b2 % 2) (b3 % 2) (b4 % 2) (b5 % 2) (b6 % 2) (b7 % 2)) ∧
  (∀ d : DataWord, DataWord.ofInts (bitVal d.d1) (bitVal d.d2) (bitVal d.d3) (bitVal d.d4) = d) ∧
  (∀ w : Word7, Word7.ofInts (bitVal w.b1) (bitVal w.b2) (bitVal w.b3) (bitVal w.b4) (bitVal w.b5) (bitVal w.b6)
    (bitVal w.b7) = w)

/-! ## The host: a run -/

/-- A run about to start is refused exactly where an input breaks a precondition, and starts otherwise: the spec's
decision D25 (log entries 6 and 7). -/
def Obligations.RunIsRefusedExactlyOnBrokenPreconditions : Prop :=
  ∀ (s : State) (img : RawImage) (sel : Selection) (src : DrawSource),
    s.Idle → s.host.program = [] → s.host.image = some img → s.host.selection = some sel →
    s.host.source = some src →
    (step s = .refused .preconditionBroken ↔ ¬(img.InRange ∧ sel.AllFinite)) ∧
    (img.InRange ∧ sel.AllFinite → ∃ t, step s = .next t)

/-- An idle host without all three inputs of a run does nothing: the model's choice of an idle step (log entry 3). -/
def Obligations.HostWaitsForItsInputs : Prop :=
  ∀ s : State, s.Idle → s.host.program = [] →
    (s.host.image = none ∨ s.host.selection = none ∨ s.host.source = none) → step s = .next s

/-- Every run starts with zero counters, no record, and both buffers copies of the image, and it keeps nothing from an
earlier run: what it starts with is made of its own inputs. That the outcome of the run before is cleared is the model's
choice (log entry 11); that a degenerate run ends in the step that starts it, with copies of the image, is the spec's
decision D21 in the steps of log entry 16. -/
def Obligations.RunStartsWithAFreshResultSet : Prop :=
  ∀ (s : State) (img : Image) (sel : Rect) (src : DrawSource), s.ReadyToRun img sel src →
    ((clampRegion img sel).degenerate = false →
      ∃ (t : State) (r : RunState), step s = .next t ∧ t.host.run = some r ∧ t.host.outcome = none ∧
        r.results.stats = ⟨0, 0, 0, 0⟩ ∧ r.results.records = [] ∧ r.results.correctedPixels = img ∧
        r.results.corruptedPixels = img ∧ r.luma = s.host.luma ∧ r.source = src ∧
        r.todo = (clampRegion img sel).sites img ∧ r.half = .high ∧ r.phase = .present ∧
        t.cmd = none ∧ t.rsp = s.rsp) ∧
    ((clampRegion img sel).degenerate = true →
      ∃ (t : State) (rs : ResultSet), step s = .next t ∧ t.host.run = none ∧
        t.host.outcome = some (.regionTooSmall rs) ∧ rs.stats = ⟨0, 0, 0, 0⟩ ∧ rs.records = [] ∧
        rs.correctedPixels = img ∧ rs.corruptedPixels = img)

/-- A region without a pixel ends the run at once: no record, zero counters, no request, both buffers copies of the
image (the spec's decision D21). That it ends in the very step that starts it is the model's choice (log entry 16). -/
def Obligations.DegenerateRegionEndsTheRunAtOnce : Prop :=
  ∀ (s : State) (img : Image) (sel : Rect) (src : DrawSource), s.ReadyToRun img sel src →
    ((clampRegion img sel).sw = 0 ∨ (clampRegion img sel).sh = 0) →
    ∃ t : State, step s = .next t ∧ t.host.run = none ∧ t.cmd = none ∧ t.rsp = s.rsp ∧ requestTrace s 1 = [] ∧
      t.host.outcome = some (.regionTooSmall ⟨img, img, [], ⟨0, 0, 0, 0⟩⟩)

/-- The clamped region: its formulas, and the corner cases the spec derives from them. -/
def Obligations.ClampedRegionFollowsItsFormulas : Prop :=
  ∀ (img : Image) (sel : Rect),
    ((clampRegion img sel).sx : Int) = max 0 sel.x.floor ∧ ((clampRegion img sel).sy : Int) = max 0 sel.y.floor ∧
    ((clampRegion img sel).sw : Int) = max 0 (min ((img.width : Int) - (clampRegion img sel).sx) sel.w.floor) ∧
    ((clampRegion img sel).sh : Int) = max 0 (min ((img.height : Int) - (clampRegion img sel).sy) sel.h.floor) ∧
    (sel.x < 0 → (clampRegion img sel).sx = 0 ∧
      ((clampRegion img sel).sw : Int) = max 0 (min (img.width : Int) sel.w.floor)) ∧
    (img.width ≤ (clampRegion img sel).sx → (clampRegion img sel).sw = 0) ∧
    (0 < (clampRegion img sel).sw → (clampRegion img sel).sx + (clampRegion img sel).sw ≤ img.width) ∧
    (0 < (clampRegion img sel).sh → (clampRegion img sel).sy + (clampRegion img sel).sh ≤ img.height) ∧
    (img.Full → ∀ x y, (clampRegion img sel).Contains x y → ∃ p, img.at x y = some p)

/-- With the default weights gray is in 0..255 and (v, v, v) gives v, under both values of LUMA_ARITH; `exact` is the
formula of R112 (log entry 10 for `binary64`). -/
def Obligations.LumaStaysInRange : Prop :=
  (∀ (arith : LumaArith) (p : Pixel), lumaGray ⟨arith, .default⟩ p ≤ 255) ∧
  (∀ (arith : LumaArith) (v : BitVec 8), lumaGray ⟨arith, .default⟩ ⟨v, v, v⟩ = v.toNat) ∧
  (∀ p : Pixel, lumaGray ⟨.exact, .default⟩ p =
    (299 * p.r.toNat + 587 * p.g.toNat + 114 * p.b.toNat + 500) / 1000)

/-- With the default weights the two values of LUMA_ARITH differ only at exact ties, where `binary64` gives one less;
at (0, 36, 12) they do differ (log entry 10). -/
def Obligations.LumaArithmeticsDifferOnlyAtTies : Prop :=
  (∀ p : Pixel, lumaGray ⟨.binary64, .default⟩ p = lumaGray ⟨.exact, .default⟩ p ∨
    ((299 * p.r.toNat + 587 * p.g.toNat + 114 * p.b.toNat) % 1000 = 500 ∧
      lumaGray ⟨.binary64, .default⟩ p + 1 = lumaGray ⟨.exact, .default⟩ p)) ∧
  lumaGray ⟨.exact, .default⟩ ⟨0, 36, 12⟩ = 23 ∧ lumaGray ⟨.binary64, .default⟩ ⟨0, 36, 12⟩ = 22

/-- The nibbles of a gray value, the DataWord of a nibble, its D bus and its ENCODE request, and the inverse; the two
nibbles of an 8-bit value, put together as the spec's decision D18 says, give it back. -/
def Obligations.NibblesSplitAndRejoin : Prop :=
  (∀ gray, nibbleOf gray .high = gray / 16 % 16 ∧ nibbleOf gray .low = gray % 16) ∧
  (∀ n, DataWord.ofNibble n =
    ⟨n / 8 % 2 == 1, n / 4 % 2 == 1, n / 2 % 2 == 1, n % 2 == 1⟩) ∧
  (∀ n, n < 16 → (DataWord.ofNibble n).toBus.toNat = n ∧ (encodeRequest (.ofNibble n)).toNat = n ∧
    (DataWord.ofNibble n).nib = n) ∧
  (∀ d : DataWord, d.nib = 8 * bitVal d.d1 + 4 * bitVal d.d2 + 2 * bitVal d.d3 + bitVal d.d4 ∧
    DataWord.ofNibble d.nib = d) ∧
  (∀ gray, gray < 256 → reassemble (.ofNibble (nibbleOf gray .high)) (.ofNibble (nibbleOf gray .low)) = gray)

/-- 2 × sw × sh records; record 2p+1 is the high nibble and record 2p+2 the low nibble of the p-th
pixel in row-major order, with its absolute position, the DataWord of its luma, draws 2p and 2p+1 of the source, and
each record a round trip through the channel. The absolute positions are the spec's decision D20, and the draws are its
decision D22 in the form of log entry 5. -/
def Obligations.RecordsFollowRowMajorOrder : Prop :=
  ∀ (luma : LumaParams) (img : Image) (sel : Rect) (src : DrawSource) (rs : ResultSet), img.Full →
    runOnRegion luma img sel src = .ok rs →
    rs.records.length = 2 * (clampRegion img sel).sw * (clampRegion img sel).sh ∧ rs.inspect 0 = none ∧
    ∀ p, p < (clampRegion img sel).sw * (clampRegion img sel).sh →
      ∃ (px : Pixel) (high low : CodewordRecord),
        img.at ((clampRegion img sel).sx + p % (clampRegion img sel).sw)
          ((clampRegion img sel).sy + p / (clampRegion img sel).sw) = some px ∧
        rs.inspect (2 * p + 1) = some high ∧ rs.inspect (2 * p + 2) = some low ∧
        (high.x = (clampRegion img sel).sx + p % (clampRegion img sel).sw ∧
          high.y = (clampRegion img sel).sy + p / (clampRegion img sel).sw ∧ low.x = high.x ∧ low.y = high.y) ∧
        high.nibble = .high ∧ low.nibble = .low ∧
        high.dataWord = .ofNibble (nibbleOf (lumaGray luma px) .high) ∧
        low.dataWord = .ofNibble (nibbleOf (lumaGray luma px) .low) ∧
        high.injectedErrorIndex = src.at (src.taken + 2 * p) ∧
        low.injectedErrorIndex = src.at (src.taken + 2 * p + 1) ∧ high.Faithful ∧ low.Faithful

/-- A run over N pixels takes 2N draws from its source. The free draws past the supplied ones are the model's form of
R116's "any value" (log entry 5). -/
def Obligations.RunTakesTwoDrawsForEachPixel : Prop :=
  ∀ (luma : LumaParams) (img : Image) (sel : Rect) (src : DrawSource), img.Full →
    (runSites luma (.fresh img, src) ((clampRegion img sel).sites img)).2 =
      { src with taken := src.taken + 2 * ((clampRegion img sel).sw * (clampRegion img sel).sh) }

/-- For every draw sequence (log entry 5) all four counters of an `Ok` run are 2 × sw × sh. -/
def Obligations.StatisticsCountEveryCodeword : Prop :=
  ∀ (luma : LumaParams) (img : Image) (sel : Rect) (src : DrawSource) (rs : ResultSet), img.Full →
    runOnRegion luma img sel src = .ok rs →
    rs.stats.totalBlocks = 2 * (clampRegion img sel).sw * (clampRegion img sel).sh ∧
    rs.stats.totalCodewords = rs.stats.totalBlocks ∧ rs.stats.errorsIntroduced = rs.stats.totalBlocks ∧
    rs.stats.errorsCorrected = rs.stats.errorsIntroduced

/-- For every draw sequence the corrected output shows the luma of each pixel of the region, with the default weights
and both values of LUMA_ARITH. How the two nibbles are put together is the spec's decision D18; the draw sequences are
those of log entry 5. -/
def Obligations.CorrectedOutputIsTheLuma : Prop :=
  ∀ (arith : LumaArith) (img : Image) (sel : Rect) (src : DrawSource) (rs : ResultSet), img.Full →
    runOnRegion ⟨arith, .default⟩ img sel src = .ok rs →
    ∀ x y, (clampRegion img sel).Contains x y →
      ∃ px, img.at x y = some px ∧
        rs.correctedPixels.at x y = some (.flat (lumaGray ⟨arith, .default⟩ px))

/-- For every draw sequence the corrupted output shows, for each pixel of the region, the two nibbles of its luma with
the flipped data bits: no change at a parity index, one bit at a data index, the high nibble's weighted by 16. How
the received nibbles are put together is the spec's decision D19; the draw sequences are those of log entry 5. -/
def Obligations.CorruptedOutputShowsTheFlippedDataBits : Prop :=
  ∀ (luma : LumaParams) (img : Image) (sel : Rect) (src : DrawSource) (rs : ResultSet), img.Full →
    runOnRegion luma img sel src = .ok rs →
    ∀ p, p < (clampRegion img sel).sw * (clampRegion img sel).sh →
      ∃ px, img.at ((clampRegion img sel).sx + p % (clampRegion img sel).sw)
          ((clampRegion img sel).sy + p / (clampRegion img sel).sw) = some px ∧
        rs.corruptedPixels.at ((clampRegion img sel).sx + p % (clampRegion img sel).sw)
          ((clampRegion img sel).sy + p / (clampRegion img sel).sw) =
        some (.flat
          (16 * (nibbleOf (lumaGray luma px) .high ^^^ corruptionMask (src.at (src.taken + 2 * p))) +
            (nibbleOf (lumaGray luma px) .low ^^^ corruptionMask (src.at (src.taken + 2 * p + 1)))))

/-- Both output buffers have the image's size, and outside the region they are the image (the spec's decision D27). -/
def Obligations.PixelsOutsideTheRegionStayAsTheyWere : Prop :=
  ∀ (luma : LumaParams) (img : Image) (sel : Rect) (src : DrawSource) (rs : ResultSet),
    runOnRegion luma img sel src = .ok rs →
    rs.correctedPixels.width = img.width ∧ rs.correctedPixels.height = img.height ∧
    rs.corruptedPixels.width = img.width ∧ rs.corruptedPixels.height = img.height ∧
    ∀ x y, ¬(clampRegion img sel).Contains x y →
      rs.correctedPixels.at x y = img.at x y ∧ rs.corruptedPixels.at x y = img.at x y

/-- The machine takes a run through the block to the outcome that `runOnRegion` gives, in its start, ten steps for each
pixel and its end; nothing else of the host changes but the inputs it used up (log entries 11 and 16). -/
def Obligations.MachineRunIsRunOnRegion : Prop :=
  ∀ (s : State) (img : Image) (sel : Rect) (src : DrawSource), s.ReadyToRun img sel src → img.Full →
    (clampRegion img sel).degenerate = false →
    core.run (runSteps ((clampRegion img sel).sw * (clampRegion img sel).sh)) s = .next
      { s with
        cmd := none
        rsp := none
        host := { s.host with
          image := none, selection := none, source := none,
          outcome := some (runOnRegion s.host.luma img sel src) } }

/-- A run over N pixels has the block answer exactly 4N requests: for each record, its ENCODE request and then its
DECODE request (log entry 16). -/
def Obligations.RunMakesFourRequestsForEachPixel : Prop :=
  ∀ (s : State) (img : Image) (sel : Rect) (src : DrawSource) (rs : ResultSet), s.ReadyToRun img sel src →
    img.Full → runOnRegion s.host.luma img sel src = .ok rs →
    requestTrace s (runSteps ((clampRegion img sel).sw * (clampRegion img sel).sh)) =
      rs.records.flatMap (fun e => [encodeRequest e.dataWord, decodeRequest e.receivedWord]) ∧
    (requestTrace s (runSteps ((clampRegion img sel).sw * (clampRegion img sel).sh))).length =
      4 * (clampRegion img sel).sw * (clampRegion img sel).sh

/-- Two runs on the machine with the same image, selection, luma parameters and draws give the same buffers,
records and statistics, whatever else the two states hold; only the draws the run takes count. A degenerate run ends
in its first step (the spec's decision D21). The number of steps is the model's choice (log entry 16). -/
def Obligations.RunsWithEqualInputsGiveEqualResults : Prop :=
  ∀ (s s' : State) (img : Image) (sel : Rect) (src src' : DrawSource),
    s.ReadyToRun img sel src → s'.ReadyToRun img sel src' → s.host.luma = s'.host.luma → img.Full →
    (∀ j, j < 2 * ((clampRegion img sel).sw * (clampRegion img sel).sh) →
      src.at (src.taken + j) = src'.at (src'.taken + j)) →
    ((clampRegion img sel).degenerate = false → ∃ (t t' : State) (rs : ResultSet),
      core.run (runSteps ((clampRegion img sel).sw * (clampRegion img sel).sh)) s = .next t ∧
      core.run (runSteps ((clampRegion img sel).sw * (clampRegion img sel).sh)) s' = .next t' ∧
      t.host.outcome = some (.ok rs) ∧ t'.host.outcome = some (.ok rs)) ∧
    ((clampRegion img sel).degenerate = true → ∃ (t t' : State) (rs : ResultSet),
      step s = .next t ∧ step s' = .next t' ∧
      t.host.outcome = some (.regionTooSmall rs) ∧ t'.host.outcome = some (.regionTooSmall rs))

/-! ## The host: programs -/

/-- A FLIP inverts one bus bit, and on the machine it is a host step that binds its variable and leaves both buses
alone. The notation is the spec's decision D9, and that the step is one, and that an operand may be `v.f`, are the model's
choices (log entries 16 and 12). -/
def Obligations.FlipIsAHostStepOnOneBusBit : Prop :=
  (∀ (c : Word7) (i : Fin 7), (c.flip i).toBus = c.toBus ^^^ (1#7 <<< (i : Nat))) ∧
  (∀ (s : State) (v : Var) (u : Expr) (x : IndexOperand) (rest : List Stmt) (c : Word7) (i : Fin 7), s.Idle →
    s.host.program = .flip v u x :: rest → u.eval s.host.vars = some (.word c) → x.eval s.host.vars = .ok i →
    step s = .next { s with host := { s.host with
      program := rest, vars := s.host.vars.bind v (.word (c.flip i)) } })

/-- A DRAW takes the next index of the host's source, a supplied one as long as there is one, and counts it; a host
without a source is refused, in the step of its DRAW. That a DRAW is one step is the model's choice (log entries 5, 15,
16 and 23). -/
def Obligations.DrawTakesTheNextIndex : Prop :=
  (∀ (s : State) (v : Var) (rest : List Stmt) (src : DrawSource), s.Idle → s.host.program = .draw v :: rest →
    s.host.source = some src →
    step s = .next { s with host := { s.host with
      program := rest, vars := s.host.vars.bind v (.index (src.at src.taken)),
      source := some { src with taken := src.taken + 1 } } }) ∧
  (∀ (src : DrawSource) (h : src.taken < src.supplied.length), src.at src.taken = src.supplied[src.taken]) ∧
  (∀ (s : State) (v : Var) (rest : List Stmt), s.Idle → s.host.program = .draw v :: rest →
    s.host.source = none → step s = .refused .noDrawSource)

/-- A statement that makes a request is one block request, and the variable gets the response: three steps later the
machine is as before but for the program and that variable, and but that the host's response bus is empty: a response
that was still unread on it is replaced and so lost (log entry 21). This holds of a request line (`.request`), of `v <- ENCODE e`
for a DataWord and of `v <- DECODE e` for a 7-bit word that the host holds. A line that is a syntax error is refused, and
so is a held operand of another kind, each in its own step (log entries 12, 13, 16 and 23). -/
def Obligations.RequestLineGivesItsVariableTheResponse : Prop :=
  (∀ (s : State) (v : Var) (line : AsmLine) (rest : List Stmt) (c : Cmd), s.Idle →
    s.host.program = .request v line :: rest → assemble line = some c →
    core.run 3 s = .next { s with
      rsp := none,
      host := { s.host with program := rest, vars := s.host.vars.bind v (answer (decodeCmd c)).value } } ∧
    requestTrace s 3 = [c]) ∧
  (∀ (s : State) (v : Var) (line : AsmLine) (rest : List Stmt), s.Idle →
    s.host.program = .request v line :: rest → line.inRange = false → step s = .refused .syntaxError) ∧
  (∀ (s : State) (v : Var) (e : Expr) (rest : List Stmt) (d : DataWord), s.Idle →
    s.host.program = .encodeOf v e :: rest → e.eval s.host.vars = some (.dataWord d) →
    core.run 3 s = .next { s with
      rsp := none,
      host := { s.host with program := rest, vars := s.host.vars.bind v (.word (encodeWord d)) } } ∧
    requestTrace s 3 = [0#4 ++ d.toBus]) ∧
  (∀ (s : State) (v : Var) (e : Expr) (rest : List Stmt) (w : Word7), s.Idle →
    s.host.program = .decodeOf v e :: rest → e.eval s.host.vars = some (.word w) →
    core.run 3 s = .next { s with
      rsp := none,
      host := { s.host with program := rest, vars := s.host.vars.bind v (.result (decodeWord w)) } } ∧
    requestTrace s 3 = [1#1 ++ w.toBus]) ∧
  (∀ (s : State) (v : Var) (e : Expr) (rest : List Stmt), s.Idle → s.host.program = .encodeOf v e :: rest →
    (∀ d, e.eval s.host.vars ≠ some (.dataWord d)) → step s = .refused .illFormedStatement) ∧
  (∀ (s : State) (v : Var) (e : Expr) (rest : List Stmt), s.Idle → s.host.program = .decodeOf v e :: rest →
    (∀ w, e.eval s.host.vars ≠ some (.word w)) → step s = .refused .illFormedStatement)

/-- A program that has a value as a function runs to its end on the machine and leaves that value: its variables and
the source; the rest of the host, and the other requesters' responses, are unchanged (log entries 12 and 16). -/
def Obligations.ProgramOnTheMachineIsItsFunction : Prop :=
  ∀ (s : State) (env : ProgramEnv), s.Idle → evalProgram (s.host.vars, s.host.source) s.host.program = some env →
    ∃ t : State, core.run (programSteps s.host.program) s = .next t ∧ t.cmd = none ∧
      t.others = [] ∧ t.answers = s.answers ∧
      t.host = { s.host with program := [], vars := env.1, source := env.2 }

/-- A program whose operands are in range and of the right kinds, on a host with a source, runs to its end without a
fault or a refusal. The number of steps is the model's choice (log entries 12, 13, 15 and 16). -/
def Obligations.WellFormedProgramsRunToTheirEnd : Prop :=
  ∀ (s : State) (sc : Scope), s.Idle → s.host.source.isSome → s.host.vars.Fits sc →
    programWf sc s.host.program = true →
    ∃ t : State, core.run (programSteps s.host.program) s = .next t ∧ t.Idle ∧ t.host.program = [] ∧
      t.host.source.isSome

/-! ## The whole machine -/

/-- The reset state meets the invariant. -/
def Obligations.ResetMeetsTheInvariant : Prop := State.reset.Inv

/-- Every step keeps the invariant: what the host awaits agrees with the buses, and every result set has full buffers
of one size, faithful records and counters equal to the number of records. -/
def Obligations.EveryStepKeepsTheInvariant : Prop :=
  ∀ s t : State, s.Inv → step s = .next t → t.Inv

/-- Where the invariant holds, the machine does not fault. -/
def Obligations.CoherentMachineNeverFaults : Prop :=
  ∀ s : State, s.Inv → ¬Faults s

/-- A response appears on the host's response bus only as the block's answer to the request on its command bus, where it
replaces one still unread (log entry 21). -/
def Obligations.OnlyTheBlockResponds : Prop :=
  ∀ (s t : State) (r : Response), step s = .next t → t.rsp = some r → s.rsp ≠ some r →
    ∃ c, s.cmd = some c ∧ r = answer (decodeCmd c) ∧ t = { s with cmd := none, rsp := some r }

/-- While a run goes on its records are never changed or removed: each step leaves them or adds one at the end.
That a step adds no more than one is the model's choice of what one step does of a run (log entry 16). -/
def Obligations.RecordsAreOnlyAdded : Prop :=
  ∀ (s t : State) (r r' : RunState), s.host.run = some r → step s = .next t → t.host.run = some r' →
    r'.results.records = r.results.records ∨ ∃ e, r'.results.records = r.results.records ++ [e]

/-- The outcome that the host holds changes only at the end of a run, which leaves its results, and at the start of
one, which clears it or, for a degenerate region, leaves `RegionTooSmall` (log entry 11). -/
def Obligations.OutcomeComesOnlyFromARun : Prop :=
  ∀ s t : State, step s = .next t → t.host.outcome ≠ s.host.outcome →
    (∃ r, s.host.run = some r ∧ r.todo = [] ∧ t.host.outcome = some (.ok r.results) ∧ t.host.run = none) ∨
    (∃ img sel src, s.ReadyToRun img sel src ∧
      (((clampRegion img sel).degenerate = false ∧ t.host.outcome = none ∧ t.host.run.isSome) ∨
        ((clampRegion img sel).degenerate = true ∧ t.host.run = none ∧
          t.host.outcome = some (.regionTooSmall (.fresh img)))))

/-! ## The host: what a statement reads -/

/-- A variable reads as its last binding, `v.f` as the field f of the DECODE result that v holds and as nothing where v
holds none, and `v <- e` is a host step that binds v to what e reads and leaves both buses alone; it is refused where e
reads nothing, in its own step (log entries 12, 13, 16 and 23). -/
def Obligations.HeldValuesAreReadAndBound : Prop :=
  (∀ (vars : Vars) (u v : Var) (x : HostValue),
    (Expr.var u).eval (vars.bind v x) = if u = v then some x else (Expr.var u).eval vars) ∧
  (∀ (vars : Vars) (v : Var) (r : DecodeResult), (Expr.var v).eval vars = some (.result r) →
    (Expr.field v .dataBits).eval vars = some (.dataWord r.dataBits) ∧
    (Expr.field v .syndromeBits).eval vars = some (.syndrome r.syndromeBits) ∧
    (Expr.field v .errorPosition).eval vars = some (.position r.errorPosition) ∧
    (Expr.field v .correctedCodeword).eval vars = some (.word r.correctedCodeword)) ∧
  (∀ (vars : Vars) (v : Var) (f : Field), (∀ r, (Expr.var v).eval vars ≠ some (.result r)) →
    (Expr.field v f).eval vars = none) ∧
  (∀ (s : State) (v : Var) (e : Expr) (rest : List Stmt) (x : HostValue), s.Idle →
    s.host.program = .bind v e :: rest → e.eval s.host.vars = some x →
    step s = .next { s with host := { s.host with program := rest, vars := s.host.vars.bind v x } }) ∧
  (∀ (s : State) (v : Var) (e : Expr) (rest : List Stmt), s.Idle → s.host.program = .bind v e :: rest →
    e.eval s.host.vars = none → step s = .refused .illFormedStatement)

/-- A FLIP's index is a literal in 0..6 as written, or an index that the host holds. A FLIP is refused in its own step
where its literal is over 6, as a syntax error, and where an operand is not of its kind, of which the word is looked at
first. The notation is the spec's decision D9, and the refusals are the model's choice (log entries 12, 13 and 23). -/
def Obligations.FlipOperandsAreReadOrRefused : Prop :=
  (∀ (vars : Vars) (i : Nat) (h : i < 7), (IndexOperand.literal i).eval vars = .ok ⟨i, h⟩) ∧
  (∀ (vars : Vars) (e : Expr) (i : Fin 7), e.eval vars = some (.index i) → (IndexOperand.read e).eval vars = .ok i) ∧
  (∀ (s : State) (v : Var) (u : Expr) (rest : List Stmt) (c : Word7) (i : Nat), s.Idle →
    s.host.program = .flip v u (.literal i) :: rest → u.eval s.host.vars = some (.word c) → 7 ≤ i →
    step s = .refused .syntaxError) ∧
  (∀ (s : State) (v : Var) (u e : Expr) (rest : List Stmt) (c : Word7), s.Idle →
    s.host.program = .flip v u (.read e) :: rest → u.eval s.host.vars = some (.word c) →
    (∀ i, e.eval s.host.vars ≠ some (.index i)) → step s = .refused .illFormedStatement) ∧
  (∀ (s : State) (v : Var) (u : Expr) (x : IndexOperand) (rest : List Stmt), s.Idle →
    s.host.program = .flip v u x :: rest → (∀ c, u.eval s.host.vars ≠ some (.word c)) →
    step s = .refused .illFormedStatement)

/-! ## Other requesters -/

/-- Where the host has no request on its bus, the block answers the oldest request of another requester, and nothing of
the host changes; all of them are answered, each with the response that its command word alone determines, in the order
they were made; and a requester that has no response left to read makes a request and reads that response, which leaves
the machine as it was. Reading none is a fault. The order in which the block answers is the model's choice (log entry
24), and the fault is the spec's decision D13 (log entry 2). -/
def Obligations.OtherRequestersGetTheirOwnResponses : Prop :=
  (∀ (s : State) (p : OtherRequest) (rest : List OtherRequest), s.cmd = none → s.others = p :: rest →
    step s = .next { s with
      others := rest, answers := s.answers ++ [⟨p.requester, answer (decodeCmd p.cmd)⟩] }) ∧
  (∀ s : State, s.cmd = none →
    core.run s.others.length s = .next { s with
      others := [],
      answers := s.answers ++ s.others.map fun p => ⟨p.requester, answer (decodeCmd p.cmd)⟩ }) ∧
  (∀ (s : State) (q : Nat) (c : Cmd), s.cmd = none → s.others = [] → (∀ a ∈ s.answers, a.requester ≠ q) →
    ∃ t : State, step (s.request ⟨q, c⟩) = .next t ∧ t.readAnswer q = .ok (answer (decodeCmd c), s)) ∧
  (∀ (s : State) (q : Nat), (∀ a ∈ s.answers, a.requester ≠ q) →
    s.readAnswer q = .error .responseNotAvailable)

/-- However the requests of other requesters are interleaved with the host's, each gets the response it would get alone,
in the order they were made, and none is lost: the responses read later and the requests still waiting account for all.
And the host takes exactly the steps it would take alone, as many as the block has left over from the others' requests:
it ends in the state, the fault or the refusal that it would come to without them. The order in which the block answers
is the model's choice (log entry 24). -/
def Obligations.InterleavedRequestsDisturbNobody : Prop :=
  ∀ (arrivals : List (List OtherRequest)) (s : State),
    (∀ t : State, runAmong arrivals s = .next t →
      t.answers ++ t.others.map OtherRequest.answer =
        s.answers ++ (s.others ++ arrivals.flatten).map OtherRequest.answer ∧
      ∃ k : Nat, core.run k s.alone = .next t.alone ∧
        k + t.answers.length = arrivals.length + s.answers.length) ∧
    (∀ f : Fault, runAmong arrivals s = .fault f → ∃ k : Nat, k ≤ arrivals.length ∧ core.run k s.alone = .fault f) ∧
    (∀ r : Refusal, runAmong arrivals s = .refused r →
      ∃ k : Nat, k ≤ arrivals.length ∧ core.run k s.alone = .refused r)
end

