-- ==== Sys2Proof/Laws/Word.lean ====
section
/-! SUPPORT. Small laws of the word formats: the packings are inverse to their unpackings, and a flip is undone by
itself. -/

namespace Sys2Proof

@[simp] theorem DataWord.ofBus_toBus (d : DataWord) : DataWord.ofBus d.toBus = d := by
  rcases d with ⟨_ | _, _ | _, _ | _, _ | _⟩ <;> rfl

@[simp] theorem DataWord.toBus_ofBus (D : BitVec 4) : (DataWord.ofBus D).toBus = D := by
  revert D; decide

@[simp] theorem Word7.ofBus_toBus (w : Word7) : Word7.ofBus w.toBus = w := by
  rcases w with ⟨_ | _, _ | _, _ | _, _ | _, _ | _, _ | _, _ | _⟩ <;> rfl

@[simp] theorem Word7.toBus_ofBus (W : BitVec 7) : (Word7.ofBus W).toBus = W := by
  revert W; decide

@[simp] theorem Syndrome.ofBus_toBus (s : Syndrome) : Syndrome.ofBus s.toBus = s := by
  rcases s with ⟨_ | _, _ | _, _ | _⟩ <;> rfl

@[simp] theorem Syndrome.toBus_ofBus (S : BitVec 3) : (Syndrome.ofBus S).toBus = S := by
  revert S; decide

@[simp] theorem positionOfBus_toBus (e : Fin 8) : positionOfBus (positionToBus e) = e := by
  revert e; decide

/-- Two 7-bit words with the same element at each index are equal. -/
theorem Word7.ext_get {a b : Word7} (h : ∀ i, a.get i = b.get i) : a = b := by
  rcases a with ⟨⟩
  rcases b with ⟨⟩
  have h0 := h 0; have h1 := h 1; have h2 := h 2; have h3 := h 3
  have h4 := h 4; have h5 := h 5; have h6 := h 6
  simp only [Word7.get] at h0 h1 h2 h3 h4 h5 h6
  simp [*]

/-- A flip inverts its own index and no other. -/
@[simp] theorem Word7.get_flip (c : Word7) (i j : Fin 7) : (c.flip i).get j = (c.get j ^^ decide (j = i)) := by
  fin_cases i <;> fin_cases j <;> simp [Word7.flip, Word7.get]

@[simp] theorem Word7.flip_flip (c : Word7) (i : Fin 7) : (c.flip i).flip i = c :=
  Word7.ext_get fun j => by simp

/-- The nibble is the D bus read as a number (R61). -/
theorem DataWord.toNat_toBus (d : DataWord) : d.toBus.toNat = d.nib := by
  rcases d with ⟨_ | _, _ | _, _ | _, _ | _⟩ <;> rfl

@[simp] theorem DataWord.ofNibble_nib (d : DataWord) : DataWord.ofNibble d.nib = d := by
  rcases d with ⟨_ | _, _ | _, _ | _, _ | _⟩ <;> decide

theorem DataWord.nib_lt (d : DataWord) : d.nib < 16 := by
  rcases d with ⟨_ | _, _ | _, _ | _, _ | _⟩ <;> decide

theorem DataWord.nib_ofNibble (n : Nat) (h : n < 16) : (DataWord.ofNibble n).nib = n := by
  interval_cases n <;> decide

end Sys2Proof
end

