-- ==== Sys2Proof/Laws/Codec.lean ====
section
/-! SUPPORT. What the codec's functions and the two meanings do, said once. -/

namespace Sys2Proof

/-- Every syndrome bit of a codeword is 0: each parity bit makes its group even. -/
@[simp] theorem syndrome_encodeWord (d : DataWord) : (encodeWord d).syndrome = ⟨false, false, false⟩ := by
  rcases d with ⟨_ | _, _ | _, _ | _, _ | _⟩ <;> rfl

@[simp] theorem dataBits_encodeWord (d : DataWord) : (encodeWord d).dataBits = d := rfl

/-- The syndrome of a codeword with index i flipped is the number of that position, i + 1. -/
theorem errorPosition_flip_encodeWord (d : DataWord) (i : Fin 7) :
    ((encodeWord d).flip i).syndrome.errorPosition = i.succ := by
  rcases d with ⟨_ | _, _ | _, _ | _, _ | _⟩ <;> revert i <;> decide

/-- Correcting at position i + 1 flips index i. -/
@[simp] theorem Word7.correct_succ (w : Word7) (i : Fin 7) : w.correct i.succ = w.flip i := rfl

@[simp] theorem Word7.correct_zero (w : Word7) : w.correct 0 = w := rfl

/-- DECODE of a codeword with index i flipped gives the codeword and its data back. -/
theorem decodeWord_flip_encodeWord (d : DataWord) (i : Fin 7) :
    decodeWord ((encodeWord d).flip i) =
      ⟨d, ((encodeWord d).flip i).syndrome, i.succ, encodeWord d⟩ := by
  simp [decodeWord, errorPosition_flip_encodeWord]

namespace Machine

/-- Every instruction completes: it gives its answer and changes nothing but the response. -/
theorem exec_eq (i : Instr) (s : State) : exec i s = .next (s.respond (answer i)) := by
  cases i <;> rfl

end Machine
end Sys2Proof
end

