-- ==== Sys2Proof/Laws/Decode.lean ====
section
/-! SUPPORT. What the decoder reads from the requests the host makes. -/

namespace Sys2Proof.Machine

@[simp] theorem decodeCmd_encodeRequest (d : DataWord) : decodeCmd (encodeRequest d) = .encode 0 d := by
  rcases d with ⟨_ | _, _ | _, _ | _, _ | _⟩ <;> rfl

@[simp] theorem decodeCmd_decodeRequest (w : Word7) : decodeCmd (decodeRequest w) = .decode w := by
  rcases w with ⟨_ | _, _ | _, _ | _, _ | _, _ | _, _ | _, _ | _⟩ <;> rfl

end Sys2Proof.Machine
end

