-- ==== Sys2Proof/Laws/State.lean ====
section
/-! SUPPORT. One lemma for each field and each update of the state. -/

namespace Sys2Proof.Machine

variable (s : State)

@[simp] theorem State.present_cmd (c : Cmd) : (s.present c).cmd = some c := rfl
@[simp] theorem State.present_rsp (c : Cmd) : (s.present c).rsp = s.rsp := rfl
@[simp] theorem State.present_host (c : Cmd) : (s.present c).host = s.host := rfl

@[simp] theorem State.takeRequest_cmd : s.takeRequest.cmd = none := rfl
@[simp] theorem State.takeRequest_rsp : s.takeRequest.rsp = s.rsp := rfl
@[simp] theorem State.takeRequest_host : s.takeRequest.host = s.host := rfl

@[simp] theorem State.respond_cmd (r : Response) : (s.respond r).cmd = s.cmd := rfl
@[simp] theorem State.respond_rsp (r : Response) : (s.respond r).rsp = some r := rfl
@[simp] theorem State.respond_host (r : Response) : (s.respond r).host = s.host := rfl

@[simp] theorem State.withRun_cmd (r : RunState) : (s.withRun r).cmd = s.cmd := rfl
@[simp] theorem State.withRun_rsp (r : RunState) : (s.withRun r).rsp = s.rsp := rfl
@[simp] theorem State.withRun_run (r : RunState) : (s.withRun r).host.run = some r := rfl
@[simp] theorem State.withRun_outcome (r : RunState) : (s.withRun r).host.outcome = s.host.outcome := rfl
@[simp] theorem State.withRun_program (r : RunState) : (s.withRun r).host.program = s.host.program := rfl
@[simp] theorem State.withRun_waiting (r : RunState) : (s.withRun r).host.waiting = s.host.waiting := rfl
@[simp] theorem State.withRun_vars (r : RunState) : (s.withRun r).host.vars = s.host.vars := rfl

@[simp] theorem State.endRun_cmd (out : RunOutcome) : (s.endRun out).cmd = s.cmd := rfl
@[simp] theorem State.endRun_rsp (out : RunOutcome) : (s.endRun out).rsp = s.rsp := rfl
@[simp] theorem State.endRun_run (out : RunOutcome) : (s.endRun out).host.run = none := rfl
@[simp] theorem State.endRun_outcome (out : RunOutcome) : (s.endRun out).host.outcome = some out := rfl
@[simp] theorem State.endRun_program (out : RunOutcome) : (s.endRun out).host.program = s.host.program := rfl
@[simp] theorem State.endRun_waiting (out : RunOutcome) : (s.endRun out).host.waiting = s.host.waiting := rfl
@[simp] theorem State.endRun_vars (out : RunOutcome) : (s.endRun out).host.vars = s.host.vars := rfl

@[simp] theorem State.takeInputs_cmd : s.takeInputs.cmd = s.cmd := rfl
@[simp] theorem State.takeInputs_rsp : s.takeInputs.rsp = s.rsp := rfl
@[simp] theorem State.takeInputs_image : s.takeInputs.host.image = none := rfl
@[simp] theorem State.takeInputs_selection : s.takeInputs.host.selection = none := rfl
@[simp] theorem State.takeInputs_source : s.takeInputs.host.source = none := rfl
@[simp] theorem State.takeInputs_outcome : s.takeInputs.host.outcome = none := rfl
@[simp] theorem State.takeInputs_program : s.takeInputs.host.program = s.host.program := rfl
@[simp] theorem State.takeInputs_waiting : s.takeInputs.host.waiting = s.host.waiting := rfl
@[simp] theorem State.takeInputs_vars : s.takeInputs.host.vars = s.host.vars := rfl

@[simp] theorem State.present_others (c : Cmd) : (s.present c).others = s.others := rfl
@[simp] theorem State.present_answers (c : Cmd) : (s.present c).answers = s.answers := rfl
@[simp] theorem State.respond_others (r : Response) : (s.respond r).others = s.others := rfl
@[simp] theorem State.respond_answers (r : Response) : (s.respond r).answers = s.answers := rfl
@[simp] theorem State.withRun_others (r : RunState) : (s.withRun r).others = s.others := rfl
@[simp] theorem State.withRun_answers (r : RunState) : (s.withRun r).answers = s.answers := rfl
@[simp] theorem State.endRun_others (out : RunOutcome) : (s.endRun out).others = s.others := rfl
@[simp] theorem State.endRun_answers (out : RunOutcome) : (s.endRun out).answers = s.answers := rfl
@[simp] theorem State.takeRequest_others : s.takeRequest.others = s.others := rfl
@[simp] theorem State.takeRequest_answers : s.takeRequest.answers = s.answers := rfl
@[simp] theorem State.takeInputs_others : s.takeInputs.others = s.others := rfl
@[simp] theorem State.takeInputs_answers : s.takeInputs.answers = s.answers := rfl
@[simp] theorem State.request_cmd (p : OtherRequest) : (s.request p).cmd = s.cmd := rfl
@[simp] theorem State.request_rsp (p : OtherRequest) : (s.request p).rsp = s.rsp := rfl
@[simp] theorem State.request_host (p : OtherRequest) : (s.request p).host = s.host := rfl
@[simp] theorem State.request_answers (p : OtherRequest) : (s.request p).answers = s.answers := rfl
@[simp] theorem State.request_others (p : OtherRequest) : (s.request p).others = s.others ++ [p] := rfl

/-- Several requests made one after another wait in that order. -/
theorem State.foldl_request (ps : List OtherRequest) :
    ps.foldl State.request s = { s with others := s.others ++ ps } := by
  induction ps generalizing s with
  | nil => simp
  | cons p ps ih => simp [ih, State.request]

/-- Reading the response bus gives the response on it and takes it off, and nothing else. -/
theorem State.readResponse_ok {r : Response} {t : State} (h : s.readResponse = .ok (r, t)) :
    s.rsp = some r ∧ t = { s with rsp := none } := by
  unfold State.readResponse at h
  split at h
  · rename_i q hq
    cases h
    exact ⟨hq, rfl⟩
  · cases h

/-- Reading faults exactly where there is no response. -/
theorem State.readResponse_error {f : Fault} (h : s.readResponse = .error f) :
    s.rsp = none ∧ f = .responseNotAvailable := by
  unfold State.readResponse at h
  split at h
  · cases h
  · rename_i hq
    cases h
    exact ⟨hq, rfl⟩

theorem State.readResponse_some {r : Response} (h : s.rsp = some r) :
    s.readResponse = .ok (r, { s with rsp := none }) := by
  simp [State.readResponse, h]

@[simp] theorem ResultSet.addRecord_records (rs : ResultSet) (e : CodewordRecord) :
    (rs.addRecord e).records = rs.records ++ [e] := rfl
@[simp] theorem ResultSet.addRecord_stats (rs : ResultSet) (e : CodewordRecord) :
    (rs.addRecord e).stats = rs.stats.count e.decodeResult := rfl
@[simp] theorem ResultSet.addRecord_corrected (rs : ResultSet) (e : CodewordRecord) :
    (rs.addRecord e).correctedPixels = rs.correctedPixels := rfl
@[simp] theorem ResultSet.addRecord_corrupted (rs : ResultSet) (e : CodewordRecord) :
    (rs.addRecord e).corruptedPixels = rs.corruptedPixels := rfl

@[simp] theorem Image.write_width (img : Image) (x y : Nat) (p : Pixel) : (img.write x y p).width = img.width := by
  unfold Image.write; split <;> rfl
@[simp] theorem Image.write_height (img : Image) (x y : Nat) (p : Pixel) : (img.write x y p).height = img.height := by
  unfold Image.write; split <;> rfl
@[simp] theorem Image.write_length (img : Image) (x y : Nat) (p : Pixel) :
    (img.write x y p).pixels.length = img.pixels.length := by
  unfold Image.write; split <;> simp

/-- A later binding hides an earlier one and no other variable. -/
@[simp] theorem Vars.lookup_bind (vars : Vars) (v u : Var) (x : HostValue) :
    (vars.bind v x).lookup u = if v = u then some x else vars.lookup u := rfl

end Sys2Proof.Machine
end

