-- ==== Sys2Proof/Laws/Image.lean ====
section
/-! SUPPORT. The image operations and the result set: what a read gives after a write, and what each keeps. -/

namespace Sys2Proof.Machine

/-- Row-major places of two points of one image differ where the points differ. -/
theorem rowMajor_inj {w x y x' y' : Nat} (hx : x < w) (hx' : x' < w) (h : y * w + x = y' * w + x') :
    x' = x ∧ y' = y := by
  have hw : 0 < w := by omega
  have hm : (w * y + x) % w = (w * y' + x') % w := by rw [Nat.mul_comm w y, Nat.mul_comm w y', h]
  have hd : (w * y + x) / w = (w * y' + x') / w := by rw [Nat.mul_comm w y, Nat.mul_comm w y', h]
  rw [Nat.mul_add_mod, Nat.mul_add_mod, Nat.mod_eq_of_lt hx, Nat.mod_eq_of_lt hx'] at hm
  rw [Nat.mul_add_div hw, Nat.mul_add_div hw, Nat.div_eq_of_lt hx, Nat.div_eq_of_lt hx'] at hd
  omega

/-- A write leaves every other place as it was. -/
theorem Image.at_write_other (img : Image) {x y x' y' : Nat} (p : Pixel) (h : ¬(x' = x ∧ y' = y)) :
    (img.write x y p).at x' y' = img.at x' y' := by
  unfold Image.write
  split
  · rename_i hxy
    simp only [Image.at]
    split
    · rename_i hxy'
      exact List.getElem?_set_ne fun e => h (rowMajor_inj hxy.1 hxy'.1 e)
    · rfl
  · rfl

/-- A read after a write to the same place of a full image gives the pixel written. -/
theorem Image.at_write_same (img : Image) (hf : img.Full) {x y : Nat} (p : Pixel) (hx : x < img.width)
    (hy : y < img.height) : (img.write x y p).at x y = some p := by
  have hlt : y * img.width + x < img.pixels.length := by
    rw [hf]
    nlinarith
  simp [Image.at, Image.write, hx, hy, hlt]

theorem Image.write_full (img : Image) (x y : Nat) (p : Pixel) (h : img.Full) : (img.write x y p).Full := by
  simpa [Image.Full] using h

/-- A read gives a pixel only inside the image. -/
theorem Image.at_some_lt {img : Image} {x y : Nat} {p : Pixel} (h : img.at x y = some p) :
    x < img.width ∧ y < img.height := by
  unfold Image.at at h
  split at h
  · assumption
  · cases h

@[simp] theorem ResultSet.writePixel_records (rs : ResultSet) (x y : Nat) (a c : Word7) (b d : DecodeResult) :
    (rs.writePixel x y a b c d).records = rs.records := rfl
@[simp] theorem ResultSet.writePixel_stats (rs : ResultSet) (x y : Nat) (a c : Word7) (b d : DecodeResult) :
    (rs.writePixel x y a b c d).stats = rs.stats := rfl

/-- Counting the result of a codeword with one flip adds one to each counter. -/
theorem RunStatistics.count_flip (st : RunStatistics) (d : DataWord) (i : Fin 7)
    (he : ((encodeWord d).flip i).syndrome.errorPosition = i.succ) :
    st.count (decodeWord ((encodeWord d).flip i)) =
      ⟨st.totalBlocks + 1, st.totalCodewords + 1, st.errorsIntroduced + 1, st.errorsCorrected + 1⟩ := by
  simp [RunStatistics.count, decodeWord, he, Fin.succ_pos]

end Sys2Proof.Machine
end

