-- ==== Sys2Proof/Laws/Input.lean ====
section
/-! SUPPORT. What the reading of a raw number accepts. -/

namespace Sys2Proof.Machine

theorem HostNumber.int?_eq_some (n : HostNumber) (v : Int) : n.int? = some v ↔ n = .finite v := by
  cases n with
  | finite q =>
    simp only [HostNumber.int?]
    split
    · rename_i h
      simp only [Option.some.injEq, HostNumber.finite.injEq]
      constructor
      · rintro rfl
        exact ((Rat.den_eq_one_iff q).1 h).symm
      · rintro rfl
        simp
    · rename_i h
      simp only [HostNumber.finite.injEq, reduceCtorEq, false_iff]
      rintro rfl
      simp at h
  | nan => simp [HostNumber.int?]
  | posInf => simp [HostNumber.int?]
  | negInf => simp [HostNumber.int?]

/-- An image that is read has a pixel for each place. -/
theorem RawImage.image?_length {raw : RawImage} {img : Image} (h : raw.image? = some img) :
    img.pixels.length = img.width * img.height := by
  unfold RawImage.image? at h
  split at h
  · split at h
    · rename_i hl
      cases h
      exact hl
    · cases h
  · cases h

end Sys2Proof.Machine
end

