-- ==== Sys2Proof/Laws/Luma.lean ====
section
/-! SUPPORT. Bounds on the rounding of the binary64 luma. -/

namespace Sys2Proof.Machine

/-- Rounding to the nearest integer is off by at most a half. -/
theorem roundTiesToEven_near (n d : Nat) (h : 0 < d) :
    2 * n ≤ 2 * d * roundTiesToEven n d + d ∧ 2 * d * roundTiesToEven n d ≤ 2 * n + d := by
  have hdm := Nat.div_add_mod n d
  have hlt := Nat.mod_lt n h
  unfold roundTiesToEven
  simp only
  generalize n / d = q at *
  generalize n % d = r at *
  have e : 2 * d * (q + 1) = 2 * (d * q) + 2 * d := by ring
  have e' : 2 * d * q = 2 * (d * q) := by ring
  split_ifs <;> simp only [e, e'] <;> omega

/-- Rounding a whole number of units to 53 significant bits is off by at most one part in `2 ^ 53`. -/
theorem b64Round_near (n : Nat) :
    2 ^ 53 * b64Round n 1 ≤ 2 ^ 53 * n + n ∧ 2 ^ 53 * n ≤ 2 ^ 53 * b64Round n 1 + n := by
  unfold b64Round
  simp only [Nat.div_one, one_mul]
  by_cases h : Nat.log2 n ≤ 52
  · have hs : Nat.log2 n - 52 = 0 := by omega
    rw [hs]
    simp [roundTiesToEven, Nat.mod_one]
  · generalize hk : Nat.log2 n - 52 = k
    have hn : n ≠ 0 := by
      rintro rfl
      simp at h
    have hle : 2 ^ Nat.log2 n ≤ n := Nat.log2_self_le hn
    have he : Nat.log2 n = 52 + k := by omega
    rw [he, pow_add] at hle
    obtain ⟨hlo, hhi⟩ := roundTiesToEven_near n (2 ^ k) (by positivity)
    generalize roundTiesToEven n (2 ^ k) = q at *
    generalize (2 : Nat) ^ k = K at *
    have e : 2 * K * q = 2 * (q * K) := by ring
    rw [e] at hlo hhi
    generalize q * K = m at *
    norm_num at *
    constructor <;> omega

end Sys2Proof.Machine
end

