-- ==== Sys2Proof/Laws/PerInstr.lean ====
section
/-! SUPPORT. The families of LAWS.json: one lemma for each instruction. -/

/-- The op bit of an instruction's command word is the fixed bit of its row of the opcode table (R64, R69). -/
def Sys2Proof.Laws.OpBit.Statement (i : Sys2Proof.Instr) : Prop :=
  (Sys2Proof.encodeCmd i).msb = match i with
    | .encode _ _ => false
    | .decode _ => true

theorem Sys2Proof.Laws.OpBit.encode (ignored : BitVec 3) (data : Sys2Proof.DataWord) :
    Sys2Proof.Laws.OpBit.Statement (.encode ignored data) := by
  simp only [Statement, encodeCmd]
  generalize data.toBus = D
  revert ignored D
  decide

theorem Sys2Proof.Laws.OpBit.decode (received : Sys2Proof.Word7) :
    Sys2Proof.Laws.OpBit.Statement (.decode received) := by
  simp only [Statement, encodeCmd]
  generalize received.toBus = W
  revert W
  decide
end

