-- ==== Sys2Proof/Laws/Step.lean ====
section
/-! SUPPORT. What one step can do, said once: the block's answer, and each host step. -/

namespace Sys2Proof.Machine

/-- With a request on the command bus the step is the block's answer. -/
theorem step_request {s : State} {c : Cmd} (h : s.cmd = some c) :
    step s = .next (s.takeRequest.respond (answer (decodeCmd c))) := by
  simp only [step, h, exec_eq]

/-- With none there, it is the block's answer to the oldest request of another requester. -/
theorem step_other {s : State} {p : OtherRequest} {rest : List OtherRequest} (h : s.cmd = none)
    (ho : s.others = p :: rest) :
    step s = .next { s with others := rest, answers := s.answers ++ [p.answer] } := by
  simp only [step, h, ho, serveOther, exec_eq, State.deliver, State.respond, OtherRequest.answer]

/-- With none of anyone, it is the host's step. -/
theorem step_host {s : State} (h : s.cmd = none) (ho : s.others = []) : step s = hostStep s := by
  simp only [step, h, ho]

/-- What a step that answers a next state did. -/
inductive StepCase (s : State) : State → Prop where
  | answered (c : Cmd) (hc : s.cmd = some c) : StepCase s (s.takeRequest.respond (answer (decodeCmd c)))
  | served (p : OtherRequest) (rest : List OtherRequest) (hc : s.cmd = none) (ho : s.others = p :: rest) :
      StepCase s { s with others := rest, answers := s.answers ++ [p.answer] }
  | runEnded (r : RunState) (hc : s.cmd = none) (ho : s.others = []) (hr : s.host.run = some r) (ht : r.todo = []) :
      StepCase s (s.endRun (.ok r.results))
  | presented (r : RunState) (site : Site) (rest : List Site) (hc : s.cmd = none) (ho : s.others = []) (hr : s.host.run = some r)
      (ht : r.todo = site :: rest) (hp : r.phase = .present) : StepCase s (presentEncode r site s)
  | flipped (r : RunState) (site : Site) (rest : List Site) (cw : Word7) (hc : s.cmd = none) (ho : s.others = [])
      (hr : s.host.run = some r) (ht : r.todo = site :: rest) (hp : r.phase = .awaitCodeword)
      (hq : s.rsp = some (.codeword cw)) : StepCase s (flipAndPresentDecode r cw { s with rsp := none })
  | recorded (r : RunState) (site : Site) (rest : List Site) (cw : Word7) (i : Fin 7) (rw : Word7)
      (dr : DecodeResult) (hc : s.cmd = none) (ho : s.others = []) (hr : s.host.run = some r) (ht : r.todo = site :: rest)
      (hp : r.phase = .awaitResult cw i rw) (hq : s.rsp = some (.result dr)) :
      StepCase s (({ s with rsp := none } : State).withRun (r.finishNibble site rest cw i rw dr))
  | collected (v : Var) (q : Response) (hc : s.cmd = none) (ho : s.others = []) (hr : s.host.run = none)
      (hw : s.host.waiting = some v) (hq : s.rsp = some q) :
      StepCase s { s with rsp := none,
                          host := { s.host with vars := s.host.vars.bind v q.value, waiting := none } }
  | requested (st : Stmt) (rest : List Stmt) (v : Var) (c : Cmd) (hc : s.cmd = none) (ho : s.others = []) (hr : s.host.run = none)
      (hw : s.host.waiting = none) (hp : s.host.program = st :: rest)
      (ha : st.action s.host.vars s.host.source = .request v c) :
      StepCase s { s with cmd := some c, host := { s.host with program := rest, waiting := some v } }
  | assigned (st : Stmt) (rest : List Stmt) (v : Var) (x : HostValue) (src : Option DrawSource) (hc : s.cmd = none) (ho : s.others = [])
      (hr : s.host.run = none) (hw : s.host.waiting = none) (hp : s.host.program = st :: rest)
      (ha : st.action s.host.vars s.host.source = .assign v x src) :
      StepCase s { s with host := { s.host with program := rest, vars := s.host.vars.bind v x, source := src } }
  | tooSmall (raw : RawImage) (sel : Selection) (src : DrawSource) (img : Image) (rect : Rect)
      (hc : s.cmd = none) (ho : s.others = []) (hr : s.host.run = none) (hw : s.host.waiting = none) (hp : s.host.program = [])
      (hi : s.host.image = some raw) (hs : s.host.selection = some sel) (hsrc : s.host.source = some src)
      (him : raw.image? = some img)
      (hre : sel.rect? = some rect) (hd : (clampRegion img rect).degenerate = true) :
      StepCase s (s.takeInputs.endRun (.regionTooSmall (.fresh img)))
  | runStarted (raw : RawImage) (sel : Selection) (src : DrawSource) (img : Image) (rect : Rect)
      (hc : s.cmd = none) (ho : s.others = []) (hr : s.host.run = none) (hw : s.host.waiting = none) (hp : s.host.program = [])
      (hi : s.host.image = some raw) (hs : s.host.selection = some sel) (hsrc : s.host.source = some src)
      (him : raw.image? = some img)
      (hre : sel.rect? = some rect) (hd : (clampRegion img rect).degenerate = false) :
      StepCase s (s.takeInputs.withRun
        ⟨s.host.luma, src, (clampRegion img rect).sites img, .high, .present, .fresh img⟩)
  | idled (hc : s.cmd = none) (ho : s.others = []) (hr : s.host.run = none) (hw : s.host.waiting = none) (hp : s.host.program = []) :
      StepCase s s

theorem runStep_cases {r : RunState} {s t : State} (hc : s.cmd = none) (ho : s.others = []) (hr : s.host.run = some r)
    (h : runStep r s = .next t) : StepCase s t := by
  unfold runStep at h
  split at h
  · rename_i ht
    cases h
    exact .runEnded r hc ho hr ht
  · rename_i site rest ht
    split at h
    · rename_i hp
      cases h
      exact .presented r site rest hc ho hr ht hp
    · rename_i hp
      split at h
      · rename_i cw u hq
        obtain ⟨hrsp, rfl⟩ := s.readResponse_ok hq
        cases h
        exact .flipped r site rest cw hc ho hr ht hp hrsp
      · cases h
      · cases h
    · rename_i cw i rw hp
      split at h
      · rename_i dr u hq
        obtain ⟨hrsp, rfl⟩ := s.readResponse_ok hq
        cases h
        exact .recorded r site rest cw i rw dr hc ho hr ht hp hrsp
      · cases h
      · cases h

theorem startOrIdle_cases {s t : State} (hc : s.cmd = none) (ho : s.others = []) (hr : s.host.run = none) (hw : s.host.waiting = none)
    (hp : s.host.program = []) (h : startOrIdle s = .next t) : StepCase s t := by
  unfold startOrIdle at h
  split at h
  · rename_i raw sel src hi hs hsrc
    unfold startRun at h
    split at h
    · rename_i img rect him hre
      simp only at h
      split at h
      · rename_i hd
        cases h
        exact .tooSmall raw sel src img rect hc ho hr hw hp hi hs hsrc him hre hd
      · rename_i hd
        cases h
        exact .runStarted raw sel src img rect hc ho hr hw hp hi hs hsrc him hre (by simpa using hd)
    · cases h
  · cases h
    exact .idled hc ho hr hw hp

/-- Every next state of a step is one of the cases of `StepCase`. -/
theorem step_cases {s t : State} (h : step s = .next t) : StepCase s t := by
  rcases hc : s.cmd with _ | c
  · rcases ho : s.others with _ | ⟨p, rest⟩
    case cons =>
      rw [step_other hc ho] at h
      cases h
      exact .served p rest hc ho
    rw [step_host hc ho] at h
    unfold hostStep at h
    split at h
    · rename_i r hr
      exact runStep_cases hc ho hr h
    · rename_i hr
      split at h
      · rename_i v hw
        unfold collectInto at h
        split at h
        · rename_i q u hq
          obtain ⟨hrsp, rfl⟩ := s.readResponse_ok hq
          cases h
          exact .collected v q hc ho hr hw hrsp
        · cases h
      · rename_i hw
        split at h
        · rename_i st rest hp
          unfold runStmt at h
          split at h
          · rename_i v c ha
            cases h
            exact .requested st rest v c hc ho hr hw hp ha
          · rename_i v x src ha
            cases h
            exact .assigned st rest v x src hc ho hr hw hp ha
          · cases h
        · rename_i hp
          exact startOrIdle_cases hc ho hr hw hp h
  · rw [step_request hc] at h
    cases h
    exact .answered c hc

end Sys2Proof.Machine
end

