-- ==== Sys2Proof/Laws/Requesters.lean ====
section
/-! SUPPORT. Other requesters and the host leave each other alone: what reading an answer gives, and a host step in the
presence of others' requests and answers. -/

namespace Sys2Proof.Machine

theorem takeAnswer_none {q : Nat} {l : List OtherAnswer} (h : ∀ a ∈ l, a.requester ≠ q) : takeAnswer q l = none := by
  induction l with
  | nil => rfl
  | cons a l ih =>
    simp only [List.mem_cons, forall_eq_or_imp] at h
    simp [takeAnswer, h.1, ih h.2]

/-- The first answer to `q`, put behind answers to others, is the one that `q` takes. -/
theorem takeAnswer_append {q : Nat} {r : Response} {l : List OtherAnswer} (h : ∀ a ∈ l, a.requester ≠ q) :
    takeAnswer q (l ++ [⟨q, r⟩]) = some (r, l) := by
  induction l with
  | nil => simp [takeAnswer]
  | cons a l ih =>
    simp only [List.mem_cons, forall_eq_or_imp] at h
    simp [takeAnswer, h.1, ih h.2]

theorem State.readResponse_among (s : State) (ps : List OtherRequest) (as : List OtherAnswer) :
    ({ s with others := ps, answers := as } : State).readResponse =
      match s.readResponse with
      | .ok (r, t) => .ok (r, { t with others := ps, answers := as })
      | .error f => .error f := by
  rcases s with ⟨_, _ | _, _, _, _⟩ <;> rfl

/-- A host step is the same whatever other requesters have asked and been answered, and leaves that as it is. -/
theorem hostStep_among (s : State) (ps : List OtherRequest) (as : List OtherAnswer) :
    hostStep { s with others := ps, answers := as } =
      match hostStep s with
      | .next t => .next { t with others := ps, answers := as }
      | .fault f => .fault f
      | .refused r => .refused r := by
  unfold hostStep
  rcases s.host.run with _ | r
  · rcases s.host.waiting with _ | v
    · rcases s.host.program with _ | ⟨st, rest⟩
      · simp only [startOrIdle]
        rcases s.host.image <;> rcases s.host.selection <;> rcases s.host.source <;> try rfl
        simp only [startRun]
        split
        · split <;> rfl
        · rfl
      · simp only [runStmt]
        split <;> rfl
    · simp only [collectInto, State.readResponse_among]
      rcases s.readResponse with f | ⟨r, t⟩ <;> rfl
  · simp only [runStep, State.readResponse_among]
    rcases r.todo with _ | ⟨site, rest⟩
    · rfl
    · rcases r.phase with _ | _ | ⟨cw, i, rw⟩
      · rfl
      · rcases s.readResponse with f | ⟨_ | _, t⟩ <;> rfl
      · rcases s.readResponse with f | ⟨_ | _, t⟩ <;> rfl

/-- So a step of the host or for it leaves the others' requests and answers as they are. -/
theorem hostStep_others {s t : State} (h : hostStep s = .next t) : t.others = s.others ∧ t.answers = s.answers := by
  have e := hostStep_among s s.others s.answers
  rw [show ({ s with others := s.others, answers := s.answers } : State) = s from rfl, h] at e
  simp only [Host.Outcome.next.injEq] at e
  rw [e]
  exact ⟨rfl, rfl⟩

end Sys2Proof.Machine
end

