-- ==== Sys2Proof/Laws/Run.lean ====
section
/-! SUPPORT. Steps of the machine put together: the five steps of a nibble, the three of a request statement, and
the one of any other. -/

namespace Sys2Proof.Machine

theorem core_run_succ {s t : State} (h : step s = .next t) (k : Nat) : core.run (k + 1) s = core.run k t := by
  have h' : core.step s = .next t := h
  simp only [Host.Core.run, h']

theorem requestTrace_succ {s t : State} (h : step s = .next t) (k : Nat) :
    requestTrace s (k + 1) = s.cmd.toList ++ requestTrace t k := by
  simp only [requestTrace, h]

/-- The state after a nibble of a run: its request and its answer are gone, and the run has gone on. -/
def afterNibble (s : State) (r : RunState) (site : Site) (rest : List Site) : State :=
  let cw := encodeWord (r.dataWord site)
  let rw := cw.flip r.source.draw.1
  let drawn : RunState := { r with source := r.source.draw.2 }
  { s with
    cmd := none
    rsp := none
    host := { s.host with run := some (drawn.finishNibble site rest cw r.source.draw.1 rw (decodeWord rw)) } }

/-- A nibble takes five steps, in which the block answers its ENCODE and its DECODE request. -/
theorem run_nibble {s : State} {r : RunState} {site : Site} {rest : List Site} (hc : s.cmd = none)
    (ho : s.others = []) (hr : s.host.run = some r) (ht : r.todo = site :: rest) (hp : r.phase = .present) (k : Nat) :
    core.run (k + 5) s = core.run k (afterNibble s r site rest) ∧
    requestTrace s (k + 5) =
      [encodeRequest (r.dataWord site), decodeRequest ((encodeWord (r.dataWord site)).flip r.source.draw.1)] ++
        requestTrace (afterNibble s r site rest) k := by
  let u1 := presentEncode r site s
  have s1 : step s = .next u1 := by
    simp [step, hostStep, hc, ho, hr, runStep, ht, hp, u1]
  let u2 := u1.takeRequest.respond (.codeword (encodeWord (r.dataWord site)))
  have s2 : step u1 = .next u2 := by
    rw [step_request (s := u1) rfl]
    simp [answer, u2]
  let u3 := flipAndPresentDecode { r with phase := .awaitCodeword } (encodeWord (r.dataWord site))
    { u2 with rsp := none }
  have s3 : step u2 = .next u3 := by
    simp [step, hostStep, ho, u3, u2, u1, runStep, ht, presentEncode, State.readResponse]
  let u4 := u3.takeRequest.respond (.result (decodeWord ((encodeWord (r.dataWord site)).flip r.source.draw.1)))
  have s4 : step u3 = .next u4 := by
    rw [step_request (s := u3) rfl]
    simp [answer, u4]
  have s5 : step u4 = .next (afterNibble s r site rest) := by
    simp [step, hostStep, ho, u4, u3, u2, u1, runStep, ht, presentEncode, State.readResponse, flipAndPresentDecode]
    simp [afterNibble, State.withRun, RunState.finishNibble, RunState.dataWord, ht, hc, ho]
  constructor
  · rw [core_run_succ s1, core_run_succ s2, core_run_succ s3, core_run_succ s4, core_run_succ s5]
  · rw [requestTrace_succ s1, requestTrace_succ s2, requestTrace_succ s3, requestTrace_succ s4,
      requestTrace_succ s5, hc]
    rfl

/-- A statement that presents a request takes three steps, and its variable gets the block's answer. -/
theorem run_request {s : State} {st : Stmt} {rest : List Stmt} {v : Var} {c : Cmd} (hi : s.Idle)
    (hp : s.host.program = st :: rest) (ha : st.action s.host.vars s.host.source = .request v c) (k : Nat) :
    core.run (k + 3) s = core.run k { s with
      rsp := none,
      host := { s.host with program := rest, vars := s.host.vars.bind v (answer (decodeCmd c)).value } } := by
  obtain ⟨hc, ho, hr, hw⟩ := hi
  let u1 : State := { s with cmd := some c, host := { s.host with program := rest, waiting := some v } }
  have s1 : step s = .next u1 := by
    simp [step, hostStep, hc, ho, hr, hw, hp, runStmt, ha, State.present, u1]
  have s2 : step u1 = .next (u1.takeRequest.respond (answer (decodeCmd c))) := step_request rfl
  rw [core_run_succ s1, core_run_succ s2]
  refine core_run_succ ?_ k
  simp [step, hostStep, u1, State.takeRequest, State.respond, ho, hr, collectInto, State.readResponse, hc, hw]

/-- In those three steps the block answers that one request. -/
theorem requestTrace_request {s : State} {st : Stmt} {rest : List Stmt} {v : Var} {c : Cmd} (hi : s.Idle)
    (hp : s.host.program = st :: rest) (ha : st.action s.host.vars s.host.source = .request v c) :
    requestTrace s 3 = [c] := by
  obtain ⟨hc, ho, hr, hw⟩ := hi
  simp [requestTrace, step, hostStep, hc, ho, hr, hw, hp, runStmt, ha, exec_eq, collectInto, State.readResponse,
    State.present, State.takeRequest, State.respond]

/-- A statement that binds a variable takes one step, and neither bus changes. -/
theorem step_assign {s : State} {st : Stmt} {rest : List Stmt} {v : Var} {x : HostValue} {src : Option DrawSource}
    (hi : s.Idle) (hp : s.host.program = st :: rest)
    (ha : st.action s.host.vars s.host.source = .assign v x src) :
    step s = .next { s with
      host := { s.host with program := rest, vars := s.host.vars.bind v x, source := src } } := by
  obtain ⟨hc, ho, hr, hw⟩ := hi
  simp only [step_host hc ho, hostStep, hr, hw, hp, runStmt, ha]

/-- A statement without a meaning is refused in its step. -/
theorem step_refuse {s : State} {st : Stmt} {rest : List Stmt} {r : Refusal} (hi : s.Idle)
    (hp : s.host.program = st :: rest) (ha : st.action s.host.vars s.host.source = .refuse r) :
    step s = .refused r := by
  obtain ⟨hc, ho, hr, hw⟩ := hi
  simp only [step_host hc ho, hostStep, hr, hw, hp, runStmt, ha]

end Sys2Proof.Machine
end

