-- ==== Sys2Proof/Tests/Slice0.lean ====
section
/-! SUPPORT. The model's own tests: each check of WellFormed refuses an ill-formed term, words written out from the
encoding decode to their instructions, vectors of spec/95_test_vectors.md, and for each statement with hypotheses a
state and operands that meet them. -/

namespace Sys2Proof.Tests

open Sys2Proof Sys2Proof.Machine

/-! ## Well-formedness: each check refuses an ill-formed term -/

theorem test_encode_list_of_three_is_refused : AsmLine.wf (.encodeList [1, 0, 1]) = false := by decide
theorem test_encode_list_with_a_two_is_refused : AsmLine.wf (.encodeList [1, 0, 2, 1]) = false := by decide
theorem test_encode_nibble_16_is_refused : AsmLine.wf (.encodeImm 16) = false := by decide
theorem test_decode_list_of_eight_is_refused : AsmLine.wf (.decodeList [0, 0, 0, 0, 0, 0, 0, 0]) = false := by decide
theorem test_decode_word_128_is_refused : AsmLine.wf (.decodeImm 128) = false := by decide
theorem test_cmd_256_is_refused : AsmLine.wf (.rawCmd 256) = false := by decide
theorem test_ignored_bits_are_not_assembled : Instr.assembled (.encode 1 ⟨true, false, true, true⟩) = false := by decide
theorem test_channel_256_is_refused : RawImage.wf ⟨.finite 1, .finite 1, [⟨.finite 256, .finite 0, .finite 0⟩]⟩ = false := by
  decide
theorem test_fractional_channel_is_refused :
    RawImage.wf ⟨.finite 1, .finite 1, [⟨.finite (mkRat 1 2), .finite 0, .finite 0⟩]⟩ = false := by decide
theorem test_negative_width_is_refused : RawImage.wf ⟨.finite (-1), .finite 0, []⟩ = false := by decide
theorem test_missing_pixel_is_refused : RawImage.wf ⟨.finite 1, .finite 1, []⟩ = false := by decide
theorem test_nan_selection_is_refused : Selection.wf ⟨.nan, .finite 0, .finite 1, .finite 1⟩ = false := by decide
theorem test_infinite_selection_is_refused : Selection.wf ⟨.finite 0, .finite 0, .posInf, .negInf⟩ = false := by decide
theorem test_decode_of_an_unbound_variable_is_refused : programWf [] [.decodeOf 1 (.var 0)] = false := by decide
theorem test_flip_index_7_is_refused : programWf [] [.request 0 (.encodeImm 3), .flip 1 (.var 0) (.literal 7)] = false := by
  decide
theorem test_field_of_a_codeword_is_refused :
    programWf [] [.request 0 (.encodeImm 3), .bind 1 (.field 0 .dataBits)] = false := by decide
theorem test_p2_is_well_formed :
    programWf [] [.request 0 (.encodeImm 6), .draw 1, .flip 2 (.var 0) (.read (.var 1)), .decodeOf 3 (.var 2)] = true := by
  decide

/-! ## Decoding: words written out from R64 -/

theorem test_decode_word_encode : decodeCmd 0b0_000_1011#8 = .encode 0 ⟨true, false, true, true⟩ := by decide
theorem test_decode_word_encode_ignored : decodeCmd 0b0_101_1000#8 = .encode 5 ⟨true, false, false, false⟩ := by decide
theorem test_decode_word_decode :
    decodeCmd 0b1_1100100#8 = .decode ⟨false, false, true, false, false, true, true⟩ := by decide
theorem test_decode_word_decode_b7 :
    decodeCmd 0b1_1000000#8 = .decode ⟨false, false, false, false, false, false, true⟩ := by decide
theorem test_table_word_encode : decodeTableWord 8 0x0B = some (.encode 0 ⟨true, false, true, true⟩) := by decide
theorem test_table_word_too_long : decodeTableWord 16 0x0B = none := by decide
theorem test_no_bytes_no_request : (match decodeBytes [] with | .ok _ => false | .error e => e == .noWholeWord) = true := by
  decide

/-! ## Vectors of spec/95_test_vectors.md -/

/-- T-ENC row 0xB, and section 2.1: ignored bits set. -/
theorem test_encode_B : blockRsp 0x0B#8 = .encode 0x66#7 := by decide
theorem test_encode_B_ignored : blockRsp 0x7B#8 = .encode 0x66#7 := by decide
/-- T-DEC rows 0x64 and 0x40. -/
theorem test_decode_64 : blockRsp 0xE4#8 = .decode 0x16966#17 := by decide
theorem test_decode_40 : blockRsp 0xC0#8 = .decode 0x01F80#17 := by decide
/-- R72: the list notation of that result. -/
theorem test_decode_64_text :
    (answer (decodeCmd 0xE4#8)).text = .result [1, 0, 1, 1] [0, 1, 0] 2 [0, 1, 1, 0, 0, 1, 1] := by decide
/-- The response word read back. -/
theorem test_response_word_read_back : (RspWord.decode 0x16966#17).response = answer (decodeCmd 0xE4#8) := by decide
/-- R71: the worked examples. -/
theorem test_assemble_encode : assemble (.encodeList [1, 0, 1, 1]) = some 0x0B#8 := by decide
theorem test_assemble_decode : assemble (.decodeList [0, 0, 1, 0, 0, 1, 1]) = some 0xE4#8 := by decide
/-- Section 3.2: H2.1, H2.3, H2.4. -/
theorem test_clamp_H2_1 :
    clampRegion ⟨4, 1, []⟩ ⟨-5, 0, 10, 1⟩ = ⟨0, 0, 4, 1⟩ := by decide
theorem test_clamp_H2_3 :
    clampRegion ⟨4, 4, []⟩ ⟨mkRat (-3) 2, mkRat (-1) 2, mkRat 16 5, 2⟩ = ⟨0, 0, 3, 2⟩ := by decide
theorem test_clamp_H2_4 : clampRegion ⟨4, 4, []⟩ ⟨2, 3, -1, 5⟩ = ⟨2, 3, 0, 1⟩ := by decide
/-- Section 4: a tie where the two arithmetics differ, and one where they do not. -/
theorem test_luma_exact : exactLuma .default ⟨0, 36, 12⟩ = 23 := by decide
theorem test_luma_binary64 : binary64Luma .default ⟨0, 36, 12⟩ = 22 := by decide +kernel
theorem test_luma_binary64_tie : binary64Luma .default ⟨0, 0, 250⟩ = 29 := by decide +kernel
/-- The coefficient 0.299 in binary64 is 5386305154335113 / 2^54. -/
theorem test_b64_coefficient : b64Coefficient 299 1000 = 5386305154335113 * 2 ^ 1020 := by decide +kernel

/-! ## Small states -/

/-- P4's image, selection and draws. -/
def onePixel : RawImage := ⟨.finite 1, .finite 1, [⟨.finite 200, .finite 100, .finite 50⟩]⟩
def onePixelImage : Image := ⟨1, 1, [⟨200, 100, 50⟩]⟩
def wholeSelection : Selection := ⟨.finite 0, .finite 0, .finite 1, .finite 1⟩
def wholeRect : Rect := ⟨0, 0, 1, 1⟩
def emptyRect : Rect := ⟨0, 0, 0, 0⟩
def draws : DrawSource := ⟨[2, 0], 0, 0⟩

/-- The reset state with a run's inputs supplied. -/
def readyState (img : RawImage) (sel : Selection) : State :=
  { State.reset with host := { HostState.reset with image := some img, selection := some sel, source := some draws } }

/-- The reset state with a program and a source. -/
def programState (p : List Stmt) : State :=
  { State.reset with host := { HostState.reset with program := p, source := some draws } }

/-- The result set of P4. -/
def p4Results : ResultSet :=
  ⟨⟨1, 1, [⟨124, 124, 124⟩]⟩, ⟨1, 1, [⟨252, 252, 252⟩]⟩,
    [nibbleRecord ⟨0, 0, ⟨200, 100, 50⟩⟩ .high ⟨false, true, true, true⟩ 2,
     nibbleRecord ⟨0, 0, ⟨200, 100, 50⟩⟩ .low ⟨true, true, false, false⟩ 0], ⟨2, 2, 2, 2⟩⟩

/-- P4's outcome. -/
theorem test_p4 : runOnRegion .default onePixelImage wholeRect draws = .ok p4Results := by decide

/-- P6's outcome on P4's image: a degenerate region. -/
theorem test_degenerate :
    runOnRegion .default onePixelImage emptyRect draws =
      .regionTooSmall ⟨onePixelImage, onePixelImage, [], ⟨0, 0, 0, 0⟩⟩ := by decide

/-- P3: a double error is neither detected nor corrected; r2 = W 0x65 is decoded to [0,0,1,1] at position 3. -/
theorem test_p3 :
    (evalProgram ([], none) [.request 0 (.encodeList [1, 0, 1, 1]), .flip 1 (.var 0) (.literal 0),
        .flip 2 (.var 1) (.literal 1), .decodeOf 3 (.var 2), .bind 4 (.field 3 .dataBits)]).map
      (fun env => env.1.lookup 4) = some (some (.dataWord ⟨false, false, true, true⟩)) := by decide

/-! ## Witnesses: a state and operands that meet the hypotheses of each statement that has some -/

theorem test_witness_presented_word : (State.reset.present 0x0B#8).cmd = some 0x0B#8 ∧ 255 < 256 := by decide
theorem test_witness_encode_request :
    (State.reset.present 0x0B#8).cmd = some 0x0B#8 ∧ (0x0B#8 : Cmd)[7] = false := by decide
theorem test_witness_decode_request :
    (State.reset.present 0xE4#8).cmd = some 0xE4#8 ∧ (0xE4#8 : Cmd)[7] = true := by decide
theorem test_witness_ignored_bits :
    (0x0B#8 : Cmd)[7] = false ∧ (0x7B#8 : Cmd)[7] = false ∧
      (0x0B#8 : Cmd).extractLsb' 0 4 = (0x7B#8 : Cmd).extractLsb' 0 4 := by decide
theorem test_witness_double_error : (0 : Fin 7) ≠ 6 := by decide
theorem test_witness_idempotent :
    step (State.reset.present (decodeRequest ⟨true, false, false, false, false, false, false⟩)) =
        .next { State.reset with
          rsp := some (.result (decodeWord ⟨true, false, false, false, false, false, false⟩)) } :=
  rfl
theorem test_witness_instr_wf : (Instr.encode 7 ⟨true, true, true, true⟩).wf = true ∧
    (Instr.decode ⟨true, true, true, true, true, true, true⟩).wf = true := by decide

/-- The assembler's clauses at the ends of their ranges. -/
theorem test_witness_assembler :
    (assemble (.encodeImm 15)).map BitVec.toNat = some 15 ∧ assemble (.encodeImm 16) = none ∧
      (assemble (.decodeImm 127)).map BitVec.toNat = some 255 ∧ assemble (.decodeImm 128) = none ∧
      (assemble (.rawCmd 255)).map BitVec.toNat = some 255 ∧ assemble (.rawCmd 256) = none ∧
      (assemble (.encodeList [1, 1, 1, 1])).map BitVec.toNat = some 15 ∧ assemble (.encodeList [1, 1, 2, 1]) = none ∧
      (assemble (.decodeList [1, 1, 1, 1, 1, 1, 1])).map BitVec.toNat = some 255 ∧
      assemble (.decodeList [1, 1, 1, 1, 1, 1]) = none := by decide
theorem test_witness_assembled_line : ∀ k, AsmLine.encodeImm 15 ≠ .rawCmd k := by
  intro k
  simp

theorem test_witness_ready_inputs : onePixel.image? = some onePixelImage ∧ wholeSelection.rect? = some wholeRect := by
  decide
theorem test_witness_ready : (readyState onePixel wholeSelection).ReadyToRun onePixelImage wholeRect draws :=
  ⟨⟨rfl, rfl, rfl, rfl⟩, rfl, ⟨onePixel, rfl, by decide⟩, ⟨wholeSelection, rfl, by decide⟩, rfl⟩
theorem test_witness_ready_degenerate :
    (readyState onePixel ⟨.finite 0, .finite 0, .finite 0, .finite 0⟩).ReadyToRun onePixelImage emptyRect draws :=
  ⟨⟨rfl, rfl, rfl, rfl⟩, rfl, ⟨onePixel, rfl, by decide⟩, ⟨⟨.finite 0, .finite 0, .finite 0, .finite 0⟩, rfl, by decide⟩, rfl⟩
theorem test_witness_regions :
    (clampRegion onePixelImage wholeRect).degenerate = false ∧ (clampRegion onePixelImage emptyRect).sw = 0 ∧
      onePixelImage.pixels.length = onePixelImage.width * onePixelImage.height := by decide
theorem test_witness_in_range : onePixel.InRange ∧ wholeSelection.AllFinite :=
  ⟨⟨1, 1, by decide, by decide, by decide, fun p hp => ⟨200, 100, 50, by decide, by decide, by decide, by
    simpa [onePixel] using hp⟩⟩, ⟨0, 0, 1, 1, by decide⟩⟩
/-- A run with a channel value of 256 is refused. -/
theorem test_witness_refused :
    (match step (readyState ⟨.finite 1, .finite 1, [⟨.finite 256, .finite 0, .finite 0⟩]⟩ wholeSelection) with
      | .refused r => r == .preconditionBroken
      | _ => false) = true := by decide
theorem test_witness_waiting_host : State.reset.Idle ∧ State.reset.host.program = [] ∧ State.reset.host.image = none :=
  ⟨⟨rfl, rfl, rfl, rfl⟩, rfl, rfl⟩
/-- The clamp's clauses: a negative start, a start past the edge, a region up to the edge. -/
theorem test_witness_clamp :
    (mkRat (-1) 2 : Rat) < 0 ∧ (clampRegion onePixelImage ⟨mkRat (-1) 2, 0, 1, 1⟩).sw = 1 ∧
      onePixelImage.width ≤ (clampRegion onePixelImage ⟨1, 0, 1, 1⟩).sx ∧
      (clampRegion onePixelImage ⟨1, 0, 1, 1⟩).sw = 0 ∧
      0 < (clampRegion onePixelImage wholeRect).sw ∧ 0 < (clampRegion onePixelImage wholeRect).sh := by decide
theorem test_witness_contains : (clampRegion onePixelImage wholeRect).Contains 0 0 := by
  unfold Region.Contains
  decide
theorem test_witness_outside : ¬(clampRegion onePixelImage emptyRect).Contains 0 0 := by
  unfold Region.Contains
  decide
theorem test_witness_nibble : (15 : Nat) < 16 ∧ (255 : Nat) < 256 := by decide
theorem test_witness_ready_other_source :
    ({ readyState onePixel wholeSelection with
        host := { (readyState onePixel wholeSelection).host with
          source := some ⟨[5, 2, 0, 6], 9, 1⟩, outcome := some (.ok p4Results) } } : State).ReadyToRun
      onePixelImage wholeRect ⟨[5, 2, 0, 6], 9, 1⟩ :=
  ⟨⟨rfl, rfl, rfl, rfl⟩, rfl, ⟨onePixel, rfl, by decide⟩, ⟨wholeSelection, rfl, by decide⟩, rfl⟩
theorem test_witness_outside_of_a_run :
    runOnRegion .default onePixelImage wholeRect draws = .ok p4Results ∧
      ¬(clampRegion onePixelImage wholeRect).Contains 1 0 := by
  unfold Region.Contains
  decide
theorem test_witness_equal_inputs :
    ∀ j, j < 2 * ((clampRegion onePixelImage wholeRect).sw * (clampRegion onePixelImage wholeRect).sh) →
      draws.at (draws.taken + j) = (⟨[5, 2, 0, 6], 9, 1⟩ : DrawSource).at (1 + j) := by
  decide

/-- DRAW and a request line about to run. -/
theorem test_witness_draw :
    (programState [.draw 0]).Idle ∧ (programState [.draw 0]).host.source = some draws ∧
      draws.taken < draws.supplied.length := ⟨⟨rfl, rfl, rfl, rfl⟩, rfl, by decide⟩
theorem test_witness_draw_without_source :
    ({ State.reset with host := { HostState.reset with program := [.draw 0] } } : State).Idle ∧
      ({ State.reset with host := { HostState.reset with program := [.draw 0] } } : State).host.source = none :=
  ⟨⟨rfl, rfl, rfl, rfl⟩, rfl⟩
theorem test_witness_request :
    (programState [.request 0 (.encodeImm 15)]).Idle ∧ assemble (.encodeImm 15) = some 0x0F#8 ∧
      AsmLine.inRange (.encodeImm 16) = false := ⟨⟨rfl, rfl, rfl, rfl⟩, by decide, by decide⟩
/-- A host that holds P3's last DECODE result in variable 3 and its codeword in variable 0. -/
def heldState (p : List Stmt) : State :=
  { programState p with
    host := { (programState p).host with
      vars := [(3, .result ⟨⟨false, false, true, true⟩, ⟨true, true, false⟩, 3,
          ⟨true, false, false, false, false, true, true⟩⟩),
        (0, .word ⟨false, true, true, false, false, true, true⟩)] } }
theorem test_witness_flip :
    (heldState [.flip 4 (.var 0) (.literal 6)]).Idle ∧
      (heldState [.flip 4 (.var 0) (.literal 6)]).host.program = [.flip 4 (.var 0) (.literal 6)] ∧
      (Expr.var 0).eval (heldState [.flip 4 (.var 0) (.literal 6)]).host.vars =
        some (.word ⟨false, true, true, false, false, true, true⟩) ∧
      (IndexOperand.literal 6).eval (heldState [.flip 4 (.var 0) (.literal 6)]).host.vars = .ok 6 :=
  ⟨⟨rfl, rfl, rfl, rfl⟩, rfl, rfl, rfl⟩
/-- The refused forms: an index of 7, an index that is a word, and a word that is a DataWord. -/
theorem test_witness_flip_refused :
    (heldState [.flip 4 (.var 0) (.literal 7)]).Idle ∧
      (∀ i, (Expr.var 0).eval (heldState [.flip 4 (.var 0) (.read (.var 0))]).host.vars ≠ some (.index i)) ∧
      (∀ c, (Expr.field 3 .dataBits).eval (heldState [.flip 4 (.field 3 .dataBits) (.literal 0)]).host.vars ≠
        some (.word c)) := by
  refine ⟨⟨rfl, rfl, rfl, rfl⟩, fun i h => ?_, fun c h => ?_⟩ <;> cases h
theorem test_witness_encode_of :
    (heldState [.encodeOf 4 (.field 3 .dataBits)]).Idle ∧
      (Expr.field 3 .dataBits).eval (heldState []).host.vars = some (.dataWord ⟨false, false, true, true⟩) ∧
      (Expr.var 0).eval (heldState []).host.vars = some (.word ⟨false, true, true, false, false, true, true⟩) :=
  ⟨⟨rfl, rfl, rfl, rfl⟩, rfl, rfl⟩
theorem test_witness_decode_of :
    (heldState [.decodeOf 4 (.field 3 .correctedCodeword)]).Idle ∧
      (Expr.field 3 .correctedCodeword).eval (heldState []).host.vars =
        some (.word ⟨true, false, false, false, false, true, true⟩) ∧
      (Expr.field 3 .dataBits).eval (heldState []).host.vars ≠
        some (.word ⟨false, true, true, false, false, true, true⟩) :=
  ⟨⟨rfl, rfl, rfl, rfl⟩, rfl, by decide⟩
/-- Fields of a result, of a word (no result) and of an unbound variable. -/
theorem test_witness_bind :
    (heldState [.bind 4 (.field 3 .errorPosition)]).Idle ∧
      (Expr.field 3 .errorPosition).eval (heldState []).host.vars = some (.position 3) ∧
      (Expr.field 0 .errorPosition).eval (heldState []).host.vars = none ∧
      (Expr.var 7).eval (heldState []).host.vars = none :=
  ⟨⟨rfl, rfl, rfl, rfl⟩, rfl, rfl, rfl⟩
theorem test_witness_program_value :
    (evalProgram ([], some draws)
      [.request 0 (.encodeImm 6), .draw 1, .flip 2 (.var 0) (.read (.var 1)), .decodeOf 3 (.var 2)]).isSome = true := by
  decide
theorem test_witness_program :
    (programState [.request 0 (.encodeImm 6), .draw 1]).Idle ∧
      (programState [.request 0 (.encodeImm 6), .draw 1]).host.source.isSome = true ∧
      programWf [] (programState [.request 0 (.encodeImm 6), .draw 1]).host.program = true :=
  ⟨⟨rfl, rfl, rfl, rfl⟩, rfl, by decide⟩
theorem test_witness_fits : Vars.Fits [] [] := by
  intro v k h
  cases h

/-- A state in the middle of a run: the codeword of the high nibble is awaited and its request is on the bus. -/
def midRun : State :=
  presentEncode ⟨.default, draws, [⟨0, 0, ⟨200, 100, 50⟩⟩], .high, .present, .fresh onePixelImage⟩
    ⟨0, 0, ⟨200, 100, 50⟩⟩ State.reset
theorem test_witness_invariant : midRun.Inv := by
  constructor
  · intro r hr
    rfl
  · intro r hr
    cases hr
    exact ⟨trivial, .inl rfl⟩
  · intro r hr
    cases hr
    exact ⟨rfl, rfl, rfl, rfl, fun e he => (by cases he), rfl⟩
  · intro v hv
    cases hv
  · intro out ho
    cases ho
theorem test_witness_step_of_a_run : step midRun =
    .next (midRun.takeRequest.respond (.codeword ⟨false, false, false, true, true, true, true⟩)) := rfl
theorem test_witness_record_added :
    (match core.run 4 midRun with
      | .next (t : State) => t.host.run.map fun r => r.results.records.length
      | _ => none) = some 1 := by decide
/-- A run with no pixel left, about to end. -/
def endingRun : State :=
  State.reset.withRun ⟨.default, draws, [], .high, .present, .fresh onePixelImage⟩
theorem test_witness_outcome_changes :
    (match step endingRun with
      | .next t => t.host.outcome
      | _ => none) = some (.ok (.fresh onePixelImage)) := by decide
theorem test_witness_outcome_of_a_degenerate_start :
    (match step (readyState onePixel ⟨.finite 0, .finite 0, .finite 0, .finite 0⟩) with
      | .next t => t.host.outcome
      | _ => none) = some (.regionTooSmall (.fresh onePixelImage)) := by decide
/-- In mid-run, with the host's ENCODE answered and not yet read, two requesters ask: each gets its own response, and
the host's is still there. -/
def sharedRun : State :=
  { midRun with
    cmd := none
    rsp := some (.codeword ⟨false, false, false, true, true, true, true⟩)
    others := [⟨7, 0x0B#8⟩, ⟨3, 0xE4#8⟩] }
theorem test_other_requesters :
    (match core.run 2 sharedRun with
      | .next (t : State) => t.answers.map (fun a => (a.requester, a.response.toBus)) ==
          [(7, .encode 0x66#7), (3, .decode 0x16966#17)] && t.rsp == sharedRun.rsp && t.others.isEmpty
      | _ => false) = true := by decide
theorem test_witness_no_answer_left : sharedRun.cmd = none ∧ ∀ a ∈ sharedRun.answers, a.requester ≠ 7 := by
  refine ⟨rfl, fun a ha => ?_⟩
  cases ha
/-- The host's run goes on to the same record with two requests made before its first step here. -/
theorem test_witness_interleaved :
    (match runAmong [[⟨7, 0x0B#8⟩], [⟨3, 0xE4#8⟩], [], [], []] midRun, core.run 3 midRun with
      | .next t, .next (u : State) => t.alone == u && t.answers.length == 2
      | _, _ => false) = true := by decide
/-- A host that waits for nothing faults after the other requester has its response. -/
theorem test_witness_interleaved_fault :
    (match runAmong [[⟨7, 0x0B#8⟩], []]
        ({ State.reset with host := { HostState.reset with waiting := some 0 } } : State) with
      | .fault f => f == .responseNotAvailable
      | _ => false) = true := by decide
/-- A DRAW without a source is refused after the other requester has its response. -/
theorem test_witness_interleaved_refusal :
    (match runAmong [[⟨7, 0x0B#8⟩], []]
        ({ State.reset with host := { HostState.reset with program := [.draw 0] } } : State) with
      | .refused r => r == .noDrawSource
      | _ => false) = true := by decide
/-- Reading the response bus before any request is a fault on the machine too: a host that waits with both buses
empty. -/
theorem test_no_response_faults :
    (match step ({ State.reset with host := { HostState.reset with waiting := some 0 } } : State) with
      | .fault f => f == .responseNotAvailable
      | _ => false) = true := by decide

end Sys2Proof.Tests
end

-- ==== Proofs of the family 10_state.md ====
section
/-! The block keeps nothing from one request to the next (R20): a request that is served gives the answer of its own
command word and leaves both of the host's buses empty, so the rest of a sequence is served from there. -/

namespace Sys2Proof.Machine

theorem step_present (s : State) (c : Cmd) :
    step (s.present c) = .next { s with cmd := none, rsp := some (answer (decodeCmd c)) } :=
  step_request (s.present_cmd c)

@[simp] theorem serve_nil (s : State) : serve s [] = some ([], s) := rfl

/-- Serving the first request gives its answer, and the rest is served with both of the host's buses empty. -/
@[simp] theorem serve_cons (s : State) (c : Cmd) (cs : List Cmd) :
    serve s (c :: cs) =
      (serve { s with cmd := none, rsp := none } cs).map fun out => (answer (decodeCmd c) :: out.1, out.2) := by
  have hread := State.readResponse_some { s with cmd := none, rsp := some (answer (decodeCmd c)) } rfl
  simp only [serve, step_present, hread]

/-- Settles O9, by induction on the request sequence, from every state. -/
theorem responsesDependOnTheirRequestsAlone : Obligations.ResponsesDependOnTheirRequestsAlone := by
  intro cs
  induction cs with
  | nil => exact fun s => ⟨s, rfl, rfl, rfl, rfl⟩
  | cons c cs ih =>
    intro s
    obtain ⟨t, hserve, hhost, hothers, hanswers⟩ := ih { s with cmd := none, rsp := none }
    exact ⟨t, by simp [hserve], hhost, hothers, hanswers⟩

end Sys2Proof.Machine
end

-- ==== Proofs of the family 30_encoding.md ====
section
/-! An element passed as an integer counts as its low bit (R66): `lowBit` says whether the element is odd, is the same
for an element and for its low bit, and undoes `bitVal`. The two words then follow element by element. -/

namespace Sys2Proof

theorem lowBit_eq_true_iff_odd (v : Int) : lowBit v = true ↔ Odd v := by
  simp only [lowBit, beq_iff_eq, Int.odd_iff]

@[simp] theorem lowBit_emod_two (v : Int) : lowBit (v % 2) = lowBit v := by
  simp only [lowBit, Int.emod_emod]

@[simp] theorem lowBit_bitVal (b : Bool) : lowBit (bitVal b) = b := by
  cases b
  · rfl
  · rfl

theorem DataWord.ofInts_emod_two (d1 d2 d3 d4 : Int) :
    DataWord.ofInts (d1 % 2) (d2 % 2) (d3 % 2) (d4 % 2) = DataWord.ofInts d1 d2 d3 d4 := by
  simp only [DataWord.ofInts, lowBit_emod_two]

theorem Word7.ofInts_emod_two (b1 b2 b3 b4 b5 b6 b7 : Int) :
    Word7.ofInts (b1 % 2) (b2 % 2) (b3 % 2) (b4 % 2) (b5 % 2) (b6 % 2) (b7 % 2) =
      Word7.ofInts b1 b2 b3 b4 b5 b6 b7 := by
  simp only [Word7.ofInts, lowBit_emod_two]

theorem DataWord.ofInts_bitVal (d : DataWord) :
    DataWord.ofInts (bitVal d.d1) (bitVal d.d2) (bitVal d.d3) (bitVal d.d4) = d := by
  simp only [DataWord.ofInts, lowBit_bitVal]

theorem Word7.ofInts_bitVal (w : Word7) :
    Word7.ofInts (bitVal w.b1) (bitVal w.b2) (bitVal w.b3) (bitVal w.b4) (bitVal w.b5) (bitVal w.b6)
      (bitVal w.b7) = w := by
  simp only [Word7.ofInts, lowBit_bitVal]

/-- Settles O20, clause by clause: oddness of the element, then R66 for each of the two words. -/
theorem elementsAreNormalisedToTheirLowBit : Obligations.ElementsAreNormalisedToTheirLowBit :=
  ⟨lowBit_eq_true_iff_odd,
    fun d1 d2 d3 d4 => (DataWord.ofInts_emod_two d1 d2 d3 d4).symm,
    fun b1 b2 b3 b4 b5 b6 b7 => (Word7.ofInts_emod_two b1 b2 b3 b4 b5 b6 b7).symm,
    DataWord.ofInts_bitVal,
    Word7.ofInts_bitVal⟩

end Sys2Proof
end

-- ==== Proofs of the family 40_codec.md ====
section
/-! ENCODE and DECODE on the buses (R81 to R86, R89): bit k-1 of the W bus is position k, the decoder takes ENCODE's
operand from CMD[3:0], the error position is the number whose binary digits are the syndrome bits, and the correction
inverts the index that it names and no other. -/

namespace Sys2Proof

@[simp] theorem Word7.getElem_toBus_0 (w : Word7) : w.toBus[0] = w.b1 := congrArg Word7.b1 (Word7.ofBus_toBus w)
@[simp] theorem Word7.getElem_toBus_1 (w : Word7) : w.toBus[1] = w.b2 := congrArg Word7.b2 (Word7.ofBus_toBus w)
@[simp] theorem Word7.getElem_toBus_2 (w : Word7) : w.toBus[2] = w.b3 := congrArg Word7.b3 (Word7.ofBus_toBus w)
@[simp] theorem Word7.getElem_toBus_3 (w : Word7) : w.toBus[3] = w.b4 := congrArg Word7.b4 (Word7.ofBus_toBus w)
@[simp] theorem Word7.getElem_toBus_4 (w : Word7) : w.toBus[4] = w.b5 := congrArg Word7.b5 (Word7.ofBus_toBus w)
@[simp] theorem Word7.getElem_toBus_5 (w : Word7) : w.toBus[5] = w.b6 := congrArg Word7.b6 (Word7.ofBus_toBus w)
@[simp] theorem Word7.getElem_toBus_6 (w : Word7) : w.toBus[6] = w.b7 := congrArg Word7.b7 (Word7.ofBus_toBus w)

/-- The decoder's ENCODE side: the DataWord is CMD[3:0], d1 on bit 3. -/
theorem decodeCmd_of_bit7_false {cmd : Cmd} (h : cmd[7] = false) :
    decodeCmd cmd = .encode (cmd.extractLsb' 4 3) ⟨cmd[3], cmd[2], cmd[1], cmd[0]⟩ := by
  simp [decodeCmd, h, DataWord.ofBus, BitVec.getElem_extractLsb', BitVec.getLsbD_eq_getElem]

/-- Each parity group of a codeword has even parity (R81), which is R82's zero syndrome. -/
theorem encodeWord_even_parity (d : DataWord) :
    ((encodeWord d).b1 ^^ (encodeWord d).b3 ^^ (encodeWord d).b5 ^^ (encodeWord d).b7) = false ∧
    ((encodeWord d).b2 ^^ (encodeWord d).b3 ^^ (encodeWord d).b6 ^^ (encodeWord d).b7) = false ∧
    ((encodeWord d).b4 ^^ (encodeWord d).b5 ^^ (encodeWord d).b6 ^^ (encodeWord d).b7) = false :=
  Syndrome.mk.inj (syndrome_encodeWord d)

theorem encodeWord_injective : Function.Injective encodeWord :=
  Function.LeftInverse.injective dataBits_encodeWord

/-- Bit k-1 of the error position is the syndrome bit s_k (R83): no carry can occur. -/
theorem Syndrome.testBit_errorPosition (s : Syndrome) :
    (s.errorPosition : Nat).testBit 0 = s.s1 ∧ (s.errorPosition : Nat).testBit 1 = s.s2 ∧
      (s.errorPosition : Nat).testBit 2 = s.s3 := by
  rcases s with ⟨_ | _, _ | _, _ | _⟩ <;> decide

/-- The correction inverts index errorPosition - 1 and no other; position 0 inverts none (R84). -/
theorem Word7.get_correct (w : Word7) (e : Fin 8) (i : Fin 7) :
    (w.correct e).get i = (w.get i ^^ decide ((e : Nat) = i + 1)) := by
  cases e using Fin.cases with
  | zero => simp
  | succ k => simp [Fin.ext_iff, eq_comm]

namespace Machine

/-- A step with an ENCODE request on the bus answers the codeword of CMD[3:0] and changes nothing else. -/
theorem step_encode_request {s : State} {cmd : Cmd} (hcmd : s.cmd = some cmd) (h7 : cmd[7] = false) :
    step s = .next
      { s with cmd := none, rsp := some (.codeword (encodeWord ⟨cmd[3], cmd[2], cmd[1], cmd[0]⟩)) } := by
  rw [step_request hcmd, decodeCmd_of_bit7_false h7]
  rfl

/-- Settles O4: each request is answered with a codeword, whose bus bits are read off, whose parity is its zero
syndrome, and which carries its data. The corner cases and the example are evaluated. -/
theorem encodeRequestAnswersItsCodewordOnTheBus : Obligations.EncodeRequestAnswersItsCodewordOnTheBus := by
  refine ⟨fun s cmd hcmd h7 => ?_, by decide, by decide, by decide, fun _ _ h => encodeWord_injective h⟩
  exact ⟨_, step_encode_request hcmd h7, by simp [encodeWord], by simp [encodeWord], by simp [encodeWord],
    by simp [encodeWord], encodeWord_even_parity _⟩

/-- Settles O5: the result is `decodeWord b`, whose error position is read bit by bit and whose corrected codeword is
read index by index. -/
theorem decodeCompletesWithItsFourFields : Obligations.DecodeCompletesWithItsFourFields := by
  intro b s
  have hbus : b.syndrome.s1 = (b.toBus[0] ^^ b.toBus[2] ^^ b.toBus[4] ^^ b.toBus[6]) ∧
      b.syndrome.s2 = (b.toBus[1] ^^ b.toBus[2] ^^ b.toBus[5] ^^ b.toBus[6]) ∧
      b.syndrome.s3 = (b.toBus[3] ^^ b.toBus[4] ^^ b.toBus[5] ^^ b.toBus[6]) := by
    simp [Word7.syndrome]
  have hzero : b.syndrome.errorPosition = 0 → b.correct b.syndrome.errorPosition = b := by
    intro h
    rw [h, Word7.correct_zero]
  exact ⟨decodeWord b, exec_eq (.decode b) s, rfl, hbus, rfl, b.syndrome.testBit_errorPosition, hzero,
    b.get_correct b.syndrome.errorPosition, rfl⟩

/-- Settles O12: the block answers the request with DECODE of the flipped codeword, which gives codeword and data
back. -/
theorem singleErrorsAreCorrected : Obligations.SingleErrorsAreCorrected := by
  intro s d i
  have hanswer : answer (decodeCmd (decodeRequest ((encodeWord d).flip i))) =
      .result ⟨d, ((encodeWord d).flip i).syndrome, i.succ, encodeWord d⟩ := by
    rw [decodeCmd_decodeRequest, answer, decodeWord_flip_encodeWord]
  exact ⟨_, _, step_present s _, congrArg some hanswer, rfl, rfl, rfl⟩

end Machine
end Sys2Proof
end

-- ==== Proofs of the family other ====
section
/-! The command word (R64, R69): the decoder and the encoder cut it and join it at the same bits. -/

namespace Sys2Proof

@[simp] theorem decodeCmd_encodeCmd (i : Instr) : decodeCmd (encodeCmd i) = i := by
  cases i with
  | encode ignored data =>
    obtain ⟨D, rfl⟩ : ∃ D, data = .ofBus D := ⟨data.toBus, data.ofBus_toBus.symm⟩
    revert ignored D
    decide
  | decode received => exact Machine.decodeCmd_decodeRequest received

/-- The three parts of a command word with its bit 7 clear, joined again. -/
theorem append_extract_of_bit7_false {cmd : Cmd} (h : cmd[7] = false) :
    0#1 ++ cmd.extractLsb' 4 3 ++ cmd.extractLsb' 0 4 = cmd := by
  revert cmd
  decide

theorem append_extract_of_bit7_true {cmd : Cmd} (h : cmd[7] = true) : 1#1 ++ cmd.extractLsb' 0 7 = cmd := by
  revert cmd
  decide

@[simp] theorem encodeCmd_decodeCmd (cmd : Cmd) : encodeCmd (decodeCmd cmd) = cmd := by
  cases h : cmd[7] with
  | false => simpa [decodeCmd, h, encodeCmd] using append_extract_of_bit7_false h
  | true => simpa [decodeCmd, h, encodeCmd] using append_extract_of_bit7_true h

theorem decodeTableWord_toNat (cmd : Cmd) : decodeTableWord 8 cmd.toNat = some (decodeCmd cmd) := by
  simp [decodeTableWord, decodeBytes, cmd.isLt]

/-- The mask 0x80 leaves the op bit of a word. -/
theorem and_0x80_eq (cmd : Cmd) : cmd &&& 0x80#8 = if cmd.msb then 0x80#8 else 0x00#8 := by
  revert cmd
  decide

/-- Settles O18: both round trips hold of every instruction and every word, and the op bit is the word's top bit. -/
theorem decoderAndEncoderAreInverse : Obligations.DecoderAndEncoderAreInverse := by
  refine ⟨fun i _ => ⟨decodeCmd_encodeCmd i, ?_⟩, encodeCmd_decodeCmd, fun ignored d => ?_, fun w => ?_⟩
  · rw [decodeTableWord_toNat, decodeCmd_encodeCmd]
  · have hop : (encodeCmd (.encode ignored d)).msb = false := Laws.OpBit.encode ignored d
    simp [and_0x80_eq, hop]
  · have hop : (encodeCmd (.decode w)).msb = true := Laws.OpBit.decode w
    simp [and_0x80_eq, hop]

end Sys2Proof
end

section
/-! The invariant of the machine: every operation on a result set keeps it coherent, every line of R118 keeps a run in
agreement with the buses, and so every step keeps the invariant. -/

namespace Sys2Proof.Machine

/-! ## Result sets -/

theorem ResultSet.fresh_coherent {img : Image} (hf : img.Full) : (ResultSet.fresh img).Coherent where
  corrected_full := hf
  corrupted_full := hf
  same_width := rfl
  same_height := rfl
  faithful := fun _ he => absurd he List.not_mem_nil
  counters := rfl

/-- A faithful record's codeword was hit by one flip, which DECODE finds: every counter goes up by one. -/
theorem RunStatistics.count_faithful (st : RunStatistics) {e : CodewordRecord} (he : e.Faithful) :
    st.count e.decodeResult =
      ⟨st.totalBlocks + 1, st.totalCodewords + 1, st.errorsIntroduced + 1, st.errorsCorrected + 1⟩ := by
  obtain ⟨hcw, hrw, hdr⟩ := he
  rw [hdr, hrw, hcw]
  exact st.count_flip _ _ (errorPosition_flip_encodeWord _ _)

theorem ResultSet.Coherent.addRecord {rs : ResultSet} (h : rs.Coherent) {e : CodewordRecord} (he : e.Faithful) :
    (rs.addRecord e).Coherent where
  corrected_full := h.corrected_full
  corrupted_full := h.corrupted_full
  same_width := h.same_width
  same_height := h.same_height
  faithful := by
    intro e' he'
    rcases List.mem_append.1 he' with hold | hnew
    · exact h.faithful e' hold
    · rwa [List.mem_singleton.1 hnew]
  counters := by
    rw [rs.addRecord_stats, RunStatistics.count_faithful _ he, h.counters]
    simp

theorem ResultSet.Coherent.writePixel {rs : ResultSet} (h : rs.Coherent) (x y : Nat) (rwHigh rwLow : Word7)
    (drHigh drLow : DecodeResult) : (rs.writePixel x y rwHigh drHigh rwLow drLow).Coherent where
  corrected_full := rs.correctedPixels.write_full x y _ h.corrected_full
  corrupted_full := rs.corruptedPixels.write_full x y _ h.corrupted_full
  same_width := by simpa [ResultSet.writePixel] using h.same_width
  same_height := by simpa [ResultSet.writePixel] using h.same_height
  faithful := h.faithful
  counters := h.counters

/-! ## A run and the buses -/

/-- The block answers the request that a phase waits for, and that answer is then on the response bus. -/
theorem RunPhase.Coherent.answered {dw : DataWord} {c : Cmd} {rsp : Option Response} {p : RunPhase}
    (h : p.Coherent dw (some c) rsp) : p.Coherent dw none (some (answer (decodeCmd c))) := by
  cases p with
  | present => trivial
  | awaitCodeword =>
    rcases h with hcmd | ⟨hnone, -⟩
    · cases hcmd
      exact .inr ⟨rfl, by simp [answer]⟩
    · cases hnone
  | awaitResult cw i rw =>
    obtain ⟨hcw, hrw, hcmd | ⟨hnone, -⟩⟩ := h
    · cases hcmd
      exact ⟨hcw, hrw, .inr ⟨rfl, by simp [answer]⟩⟩
    · cases hnone

theorem RunState.Coherent.answered {r : RunState} {c : Cmd} {rsp : Option Response} (h : r.Coherent (some c) rsp) :
    r.Coherent none (some (answer (decodeCmd c))) := by
  unfold RunState.Coherent at *
  split
  next ht => simpa [ht] using h
  next site rest ht =>
    simp only [ht] at h
    exact ⟨h.1, h.2.answered⟩

theorem RunState.coherent_cons {r : RunState} {site : Site} {rest : List Site} {cmd : Option Cmd}
    {rsp : Option Response} (ht : r.todo = site :: rest) :
    r.Coherent cmd rsp ↔ r.half.Coherent r.luma site ∧ r.phase.Coherent (r.dataWord site) cmd rsp := by
  simp only [RunState.Coherent, ht]

theorem RunState.coherent_of_cons {r : RunState} {site : Site} {rest : List Site} {cmd : Option Cmd}
    {rsp : Option Response} (ht : r.todo = site :: rest) (hhalf : r.half.Coherent r.luma site)
    (hphase : r.phase.Coherent (r.dataWord site) cmd rsp) : r.Coherent cmd rsp :=
  (RunState.coherent_cons ht).2 ⟨hhalf, hphase⟩

/-- A run about to present the ENCODE of a high nibble agrees with any buses. -/
theorem RunState.coherent_of_high_present {r : RunState} (hh : r.half = .high) (hp : r.phase = .present)
    (cmd : Option Cmd) (rsp : Option Response) : r.Coherent cmd rsp := by
  unfold RunState.Coherent
  split
  · exact hp
  · rw [hh, hp]
    exact ⟨trivial, trivial⟩

theorem RunState.finishNibble_of_high {r : RunState} (hh : r.half = .high) (site : Site) (rest : List Site) (cw : Word7)
    (i : Fin 7) (rw : Word7) (dr : DecodeResult) :
    r.finishNibble site rest cw i rw dr = { r with
      half := .low rw dr, phase := .present,
      results := r.results.addRecord ⟨site.x, site.y, .high, r.dataWord site, cw, i, rw, dr⟩ } := by
  simp only [RunState.finishNibble, hh, Half.selector]

theorem RunState.finishNibble_of_low {r : RunState} {rwHigh : Word7} {drHigh : DecodeResult}
    (hh : r.half = .low rwHigh drHigh) (site : Site) (rest : List Site) (cw : Word7) (i : Fin 7) (rw : Word7)
    (dr : DecodeResult) :
    r.finishNibble site rest cw i rw dr = { r with
      half := .high, phase := .present, todo := rest,
      results := (r.results.addRecord ⟨site.x, site.y, .low, r.dataWord site, cw, i, rw, dr⟩).writePixel
        site.x site.y rwHigh drHigh rw dr } := by
  simp only [RunState.finishNibble, hh, Half.selector]

/-- The record of a nibble whose codeword and received word are those of R118 is faithful; so the results stay
coherent. -/
theorem RunState.finishNibble_results {r : RunState} {site : Site} {rest : List Site} {i : Fin 7} {cw rw : Word7}
    (hres : r.results.Coherent) (hcw : cw = encodeWord (r.dataWord site)) (hrw : rw = cw.flip i) :
    (r.finishNibble site rest cw i rw (decodeWord rw)).results.Coherent := by
  cases hh : r.half with
  | high =>
    rw [RunState.finishNibble_of_high hh]
    exact hres.addRecord ⟨hcw, hrw, rfl⟩
  | low rwHigh drHigh =>
    rw [RunState.finishNibble_of_low hh]
    exact (hres.addRecord ⟨hcw, hrw, rfl⟩).writePixel _ _ _ _ _ _

/-- After a nibble the run presents the next one: the low nibble of the same pixel, which carries what the high one
left, or the high nibble of the next. -/
theorem RunState.finishNibble_coherent {r : RunState} {site : Site} {rest : List Site} {i : Fin 7} {cw rw : Word7}
    (ht : r.todo = site :: rest) (hcw : cw = encodeWord (r.dataWord site)) (hrw : rw = cw.flip i)
    (cmd : Option Cmd) (rsp : Option Response) :
    (r.finishNibble site rest cw i rw (decodeWord rw)).Coherent cmd rsp := by
  cases hh : r.half with
  | high =>
    have hleft : rw = (encodeWord (siteNibble r.luma site .high)).flip i := by
      rw [hrw, hcw, RunState.dataWord, hh, Half.selector]
    rw [RunState.finishNibble_of_high hh]
    exact RunState.coherent_of_cons ht ⟨⟨i, hleft⟩, rfl⟩ trivial
  | low rwHigh drHigh =>
    rw [RunState.finishNibble_of_low hh]
    exact RunState.coherent_of_high_present rfl rfl cmd rsp

/-! ## The invariant -/

/-- A state with a run in progress meets the invariant where the run does and the host awaits nothing else. -/
theorem State.inv_of_run {t : State} {r : RunState} (hr : t.host.run = some r) (hw : t.host.waiting = none)
    (hc : r.Coherent t.cmd t.rsp) (hres : r.results.Coherent)
    (hout : ∀ out, t.host.outcome = some out → out.results.Coherent) : t.Inv where
  run_alone _ _ := hw
  run_coherent r' hr' := by
    rw [hr] at hr'
    cases hr'
    exact hc
  run_results r' hr' := by
    rw [hr] at hr'
    cases hr'
    exact hres
  waiting_answered v hv := by
    rw [hw] at hv
    cases hv
  outcome_results := hout

theorem State.inv_of_no_run {t : State} (hr : t.host.run = none)
    (hw : ∀ v, t.host.waiting = some v → t.cmd.isSome ∨ t.rsp.isSome)
    (hout : ∀ out, t.host.outcome = some out → out.results.Coherent) : t.Inv where
  run_alone r hr' := by
    rw [hr] at hr'
    cases hr'
  run_coherent r hr' := by
    rw [hr] at hr'
    cases hr'
  run_results r hr' := by
    rw [hr] at hr'
    cases hr'
  waiting_answered := hw
  outcome_results := hout

/-- The codeword that a coherent run reads is the one of its DataWord. -/
theorem RunState.Coherent.codeword_read {r : RunState} {site : Site} {rest : List Site} {cw : Word7}
    (h : r.Coherent none (some (.codeword cw))) (ht : r.todo = site :: rest) (hp : r.phase = .awaitCodeword) :
    cw = encodeWord (r.dataWord site) := by
  obtain ⟨-, hphase⟩ := (RunState.coherent_cons ht).1 h
  rw [hp] at hphase
  rcases hphase with hcmd | ⟨-, hrsp⟩
  · cases hcmd
  · simpa using hrsp

/-- The DECODE result that a coherent run reads is the one of its received word. -/
theorem RunState.Coherent.result_read {r : RunState} {site : Site} {rest : List Site} {cw rw : Word7} {i : Fin 7}
    {dr : DecodeResult} (h : r.Coherent none (some (.result dr))) (ht : r.todo = site :: rest)
    (hp : r.phase = .awaitResult cw i rw) :
    cw = encodeWord (r.dataWord site) ∧ rw = cw.flip i ∧ dr = decodeWord rw := by
  obtain ⟨-, hphase⟩ := (RunState.coherent_cons ht).1 h
  rw [hp] at hphase
  obtain ⟨hcw, hrw, hcmd | ⟨-, hrsp⟩⟩ := hphase
  · cases hcmd
  · exact ⟨hcw, hrw, by simpa using hrsp⟩

/-- Settles O44, along what a step can do. -/
theorem everyStepKeepsTheInvariant : Obligations.EveryStepKeepsTheInvariant := by
  intro s t hinv hstep
  have hout := hinv.outcome_results
  cases step_cases hstep with
  | answered c hc =>
    refine ⟨hinv.run_alone, fun r hr => ?_, hinv.run_results, fun _ _ => .inr rfl, hout⟩
    have hrun := hinv.run_coherent r hr
    rw [hc] at hrun
    exact hrun.answered
  | served p rest hc ho =>
    exact ⟨hinv.run_alone, hinv.run_coherent, hinv.run_results, hinv.waiting_answered, hout⟩
  | runEnded r hc ho hr ht =>
    refine State.inv_of_no_run rfl (fun v hv => ?_) fun out he => ?_
    · exact hinv.waiting_answered v hv
    · cases he
      exact hinv.run_results r hr
  | presented r site rest hc ho hr ht hp =>
    obtain ⟨hhalf, -⟩ := (RunState.coherent_cons ht).1 (hinv.run_coherent r hr)
    exact State.inv_of_run rfl (hinv.run_alone r hr)
      (RunState.coherent_of_cons ht hhalf (.inl rfl)) (hinv.run_results r hr) hout
  | flipped r site rest cw hc ho hr ht hp hq =>
    have hrun := hinv.run_coherent r hr
    obtain ⟨hhalf, -⟩ := (RunState.coherent_cons ht).1 hrun
    rw [hc, hq] at hrun
    exact State.inv_of_run rfl (hinv.run_alone r hr)
      (RunState.coherent_of_cons ht hhalf ⟨hrun.codeword_read ht hp, rfl, .inl rfl⟩) (hinv.run_results r hr) hout
  | recorded r site rest cw i rw dr hc ho hr ht hp hq =>
    have hrun := hinv.run_coherent r hr
    rw [hc, hq] at hrun
    obtain ⟨hcw, hrw, rfl⟩ := hrun.result_read ht hp
    exact State.inv_of_run rfl (hinv.run_alone r hr) (RunState.finishNibble_coherent ht hcw hrw _ _)
      (RunState.finishNibble_results (hinv.run_results r hr) hcw hrw) hout
  | collected v q hc ho hr hw hq => exact State.inv_of_no_run hr (fun v hv => nomatch hv) hout
  | requested st rest v c hc ho hr hw hp ha => exact State.inv_of_no_run hr (fun _ _ => .inl rfl) hout
  | assigned st rest v x src hc ho hr hw hp ha => exact State.inv_of_no_run hr hinv.waiting_answered hout
  | tooSmall raw sel src img rect hc ho hr hw hp hi hs hsrc him hre hd =>
    refine State.inv_of_no_run rfl hinv.waiting_answered fun out he => ?_
    cases he
    exact ResultSet.fresh_coherent (RawImage.image?_length him)
  | runStarted raw sel src img rect hc ho hr hw hp hi hs hsrc him hre hd =>
    exact State.inv_of_run rfl hw (RunState.coherent_of_high_present rfl rfl _ _)
      (ResultSet.fresh_coherent (RawImage.image?_length him)) fun out he => nomatch he
  | idled hc ho hr hw hp => exact hinv

/-- Settles O43. -/
theorem resetMeetsTheInvariant : Obligations.ResetMeetsTheInvariant :=
  State.inv_of_no_run rfl (fun _ hv => nomatch hv) fun _ he => nomatch he

end Sys2Proof.Machine
end

section
/-! The block (R64 to R69, R74): what each command word is decoded to and answered with, bit by bit on the buses. -/

namespace Sys2Proof

/-- The decoder's DECODE side: the received word is CMD[6:0], position k on bit k-1. -/
theorem decodeCmd_of_bit7_true {cmd : Cmd} (h : cmd[7] = true) :
    decodeCmd cmd = .decode ⟨cmd[0], cmd[1], cmd[2], cmd[3], cmd[4], cmd[5], cmd[6]⟩ := by
  simp [decodeCmd, h, Word7.ofBus, BitVec.getElem_extractLsb', BitVec.getLsbD_eq_getElem]

theorem Word7.getLsbD_toBus (w : Word7) (i : Fin 7) : w.toBus.getLsbD i = w.get i := by
  fin_cases i <;> simp [BitVec.getLsbD_eq_getElem, Word7.get]

@[simp] theorem Syndrome.getElem_toBus_0 (s : Syndrome) : s.toBus[0] = s.s1 := congrArg Syndrome.s1 s.ofBus_toBus
@[simp] theorem Syndrome.getElem_toBus_1 (s : Syndrome) : s.toBus[1] = s.s2 := congrArg Syndrome.s2 s.ofBus_toBus
@[simp] theorem Syndrome.getElem_toBus_2 (s : Syndrome) : s.toBus[2] = s.s3 := congrArg Syndrome.s3 s.ofBus_toBus

@[simp] theorem DataWord.getElem_toBus_3 (d : DataWord) : d.toBus[3] = d.d1 := congrArg DataWord.d1 d.ofBus_toBus
@[simp] theorem DataWord.getElem_toBus_2 (d : DataWord) : d.toBus[2] = d.d2 := congrArg DataWord.d2 d.ofBus_toBus
@[simp] theorem DataWord.getElem_toBus_1 (d : DataWord) : d.toBus[1] = d.d3 := congrArg DataWord.d3 d.ofBus_toBus
@[simp] theorem DataWord.getElem_toBus_0 (d : DataWord) : d.toBus[0] = d.d4 := congrArg DataWord.d4 d.ofBus_toBus

/-- The E bus of a syndrome's position is its S bus: both number the same three bits (R63, R83). -/
theorem positionToBus_errorPosition (s : Syndrome) : positionToBus s.errorPosition = s.toBus := by
  rcases s with ⟨_ | _, _ | _, _ | _⟩ <;> rfl

namespace Machine

/-- The answer to an ENCODE word reads CMD[3:0] and no other bit. -/
theorem answer_of_bit7_false {cmd : Cmd} (h : cmd[7] = false) :
    answer (decodeCmd cmd) = .codeword (encodeWord (.ofBus (cmd.extractLsb' 0 4))) := by
  simp [decodeCmd, h, answer]

theorem answer_of_bit7_true {cmd : Cmd} (h : cmd[7] = true) :
    answer (decodeCmd cmd) =
      .result (decodeWord ⟨cmd[0], cmd[1], cmd[2], cmd[3], cmd[4], cmd[5], cmd[6]⟩) := by
  rw [decodeCmd_of_bit7_true h, answer]

@[simp] theorem answer_encodeRequest (d : DataWord) :
    answer (decodeCmd (encodeRequest d)) = .codeword (encodeWord d) := by
  rw [decodeCmd_encodeRequest, answer]

@[simp] theorem answer_decodeRequest (w : Word7) :
    answer (decodeCmd (decodeRequest w)) = .result (decodeWord w) := by
  rw [decodeCmd_decodeRequest, answer]

/-- Settles O1: the block moves first, and `withFetchWord` presents the word. -/
theorem stepRunsThePresentedCommandWord : Obligations.StepRunsThePresentedCommandWord := by
  have hstep : ∀ (s : State) (c : Cmd), s.cmd = some c → step s = exec (decodeCmd c) { s with cmd := none } := by
    intro s c hc
    rw [step_request hc, exec_eq]
    rfl
  refine ⟨hstep, fun s w hw => ?_⟩
  have hfetch : (s.withFetchWord 8 w).cmd = some (BitVec.ofNat 8 w) := by
    rw [State.withFetchWord, State.present_cmd, show w % 2 ^ 8 = w from Nat.mod_eq_of_lt hw]
  exact hstep _ _ hfetch

/-- Settles O2, by running the decoder on each of the four words. -/
theorem specWordsDecodeToTheirInstructions : Obligations.SpecWordsDecodeToTheirInstructions := by
  unfold Obligations.SpecWordsDecodeToTheirInstructions
  decide

/-- Settles O3: R81's equations are those of `encodeWord`. -/
theorem encodeCompletesWithTheCodeword : Obligations.EncodeCompletesWithTheCodeword :=
  fun ignored d s => exec_eq (.encode ignored d) s

/-! ## The fields of a DECODE response on RSP[16:0] (R65) -/

theorem extract_decodeResultToBus_syndrome (r : DecodeResult) :
    (decodeResultToBus r).extractLsb' 7 3 = r.syndromeBits.toBus := by
  rw [decodeResultToBus, BitVec.extractLsb'_append_eq_of_le (by omega),
    BitVec.extractLsb'_append_eq_of_add_le (by omega), BitVec.extractLsb'_eq_self]

theorem extract_decodeResultToBus_position (r : DecodeResult) :
    (decodeResultToBus r).extractLsb' 10 3 = positionToBus r.errorPosition := by
  rw [decodeResultToBus, BitVec.extractLsb'_append_eq_of_le (by omega),
    BitVec.extractLsb'_append_eq_of_le (by omega), BitVec.extractLsb'_append_eq_of_add_le (by omega),
    BitVec.extractLsb'_eq_self]

theorem extract_decodeResultToBus_dataBits (r : DecodeResult) :
    (decodeResultToBus r).extractLsb' 13 4 = r.dataBits.toBus := by
  rw [decodeResultToBus, BitVec.extractLsb'_append_eq_of_le (by omega),
    BitVec.extractLsb'_append_eq_of_le (by omega), BitVec.extractLsb'_append_eq_of_le (by omega),
    BitVec.extractLsb'_eq_self]

/-- Bit k of a field that starts at bit `start`. -/
theorem getElem_of_extractLsb' {n start len : Nat} {x : BitVec n} {field : BitVec len}
    (h : x.extractLsb' start len = field) (k : Nat) (hk : k < len) (hn : start + k < n) : x[start + k] = field[k] := by
  subst h
  rw [BitVec.getElem_extractLsb', BitVec.getLsbD_eq_getElem]

theorem decodeResultToBus_syndrome_bits (r : DecodeResult) :
    (decodeResultToBus r)[7] = r.syndromeBits.s1 ∧ (decodeResultToBus r)[8] = r.syndromeBits.s2 ∧
      (decodeResultToBus r)[9] = r.syndromeBits.s3 := by
  have hbit := getElem_of_extractLsb' (extract_decodeResultToBus_syndrome r)
  refine ⟨(hbit 0 ?_ ?_).trans ?_, (hbit 1 ?_ ?_).trans ?_, (hbit 2 ?_ ?_).trans ?_⟩ <;> simp

theorem decodeResultToBus_dataBits_bits (r : DecodeResult) :
    (decodeResultToBus r)[16] = r.dataBits.d1 ∧ (decodeResultToBus r)[15] = r.dataBits.d2 ∧
      (decodeResultToBus r)[14] = r.dataBits.d3 ∧ (decodeResultToBus r)[13] = r.dataBits.d4 := by
  have hbit := getElem_of_extractLsb' (extract_decodeResultToBus_dataBits r)
  refine ⟨(hbit 3 ?_ ?_).trans ?_, (hbit 2 ?_ ?_).trans ?_, (hbit 1 ?_ ?_).trans ?_, (hbit 0 ?_ ?_).trans ?_⟩ <;>
    simp

/-- Bit i of RSP is index i of the corrected codeword, on the seven low bits. -/
theorem getLsbD_decodeResultToBus (r : DecodeResult) (i : Fin 7) :
    (decodeResultToBus r).getLsbD i = r.correctedCodeword.get i := by
  rw [decodeResultToBus, BitVec.getLsbD_append, if_pos i.isLt, Word7.getLsbD_toBus]

/-- The data bits are copied from positions 3, 5, 6 and 7 of the corrected codeword (R85). -/
theorem decodeResultToBus_data_of_codeword (b : Word7) :
    (decodeResultToBus (decodeWord b))[16] = (decodeResultToBus (decodeWord b))[2] ∧
    (decodeResultToBus (decodeWord b))[15] = (decodeResultToBus (decodeWord b))[4] ∧
    (decodeResultToBus (decodeWord b))[14] = (decodeResultToBus (decodeWord b))[5] ∧
    (decodeResultToBus (decodeWord b))[13] = (decodeResultToBus (decodeWord b))[6] := by
  obtain ⟨h16, h15, h14, h13⟩ := decodeResultToBus_dataBits_bits (decodeWord b)
  rw [h16, h15, h14, h13]
  have hcw := fun i => (getLsbD_decodeResultToBus (decodeWord b) i).symm
  exact ⟨hcw 2, hcw 4, hcw 5, hcw 6⟩

/-- Settles O6: the response is the bus form of `decodeWord` of CMD[6:0], whose fields are read one by one. -/
theorem decodeRequestAnswersItsFieldsOnTheBus : Obligations.DecodeRequestAnswersItsFieldsOnTheBus := by
  refine ⟨fun s cmd hcmd h7 => ?_, by decide⟩
  have hstep := step_request hcmd
  rw [answer_of_bit7_true h7] at hstep
  have hget : ∀ i : Fin 7, (⟨cmd[0], cmd[1], cmd[2], cmd[3], cmd[4], cmd[5], cmd[6]⟩ : Word7).get i =
      cmd.getLsbD i := by
    intro i
    fin_cases i <;> simp [Word7.get, BitVec.getLsbD_eq_getElem]
  generalize hb : (⟨cmd[0], cmd[1], cmd[2], cmd[3], cmd[4], cmd[5], cmd[6]⟩ : Word7) = b at hstep hget
  obtain ⟨hs1, hs2, hs3⟩ := decodeResultToBus_syndrome_bits (decodeWord b)
  have hE := extract_decodeResultToBus_position (decodeWord b)
  have hES : positionToBus (decodeWord b).errorPosition = (decodeWord b).syndromeBits.toBus :=
    positionToBus_errorPosition b.syndrome
  refine ⟨decodeWord b, decodeResultToBus (decodeWord b), hstep, rfl, ?_, ?_, ?_, ?_, fun i hi => ?_,
    decodeResultToBus_data_of_codeword b⟩
  · rw [hs1, ← hb]; rfl
  · rw [hs2, ← hb]; rfl
  · rw [hs3, ← hb]; rfl
  · rw [hE, hES, extract_decodeResultToBus_syndrome]
  · have hbit := getLsbD_decodeResultToBus (decodeWord b) ⟨i, hi⟩
    have hpos : (positionToBus (decodeWord b).errorPosition).toNat = (decodeWord b).errorPosition := by
      generalize (decodeWord b).errorPosition = e
      revert e
      decide
    rw [hE, hpos, ← hget ⟨i, hi⟩]
    exact hbit.trans (b.get_correct _ _)

/-- Settles O7: bit 7 says which of the two answers it is. -/
theorem everyCommandWordIsAnswered : Obligations.EveryCommandWordIsAnswered := by
  intro s cmd
  refine ⟨answer (decodeCmd cmd), step_present s cmd, ?_⟩
  cases h7 : cmd[7] with
  | false => simp [answer_of_bit7_false h7]
  | true => simp [answer_of_bit7_true h7]

/-- Settles O8. -/
theorem encodeIgnoresTheUpperCommandBits : Obligations.EncodeIgnoresTheUpperCommandBits := by
  intro s cmd cmd' h7 h7' hD
  rw [step_present, step_present, answer_of_bit7_false h7, answer_of_bit7_false h7', hD]

/-- Settles O10: an answer depends on the command word alone. -/
theorem noResponseBeforeTheFirstRequest : Obligations.NoResponseBeforeTheFirstRequest :=
  ⟨rfl, rfl, fun s c => ⟨_, _, step_present State.reset c, step_present s c, rfl, rfl⟩⟩

theorem encodePort_request (D : BitVec 4) : 0#4 ++ D = encodeRequest (.ofBus D) := by
  revert D
  decide

theorem decodePort_request (W : BitVec 7) : 1#1 ++ W = decodeRequest (.ofBus W) := by
  rw [decodeRequest, encodeCmd, Word7.toBus_ofBus]

/-- Settles O17: each port group's operand is the operand of that command word. -/
theorem twoPortFormAnswersTheSame : Obligations.TwoPortFormAnswersTheSame := by
  intro s D W
  refine ⟨_, _, step_present s _, ?_, step_present s _, ?_⟩
  · rw [encodePort_request, answer_encodeRequest]
    rfl
  · rw [decodePort_request, answer_decodeRequest]
    rfl

end Machine
end Sys2Proof
end

section
/-! The code (R87 to R93): the syndrome is linear, a flip XORs its position into it, and so the correction leads from
every word to a codeword. -/

namespace Sys2Proof

/-! ## The syndrome -/

/-- A flip changes the syndrome bits that the binary digits of its position name. -/
theorem Word7.syndrome_flip (w : Word7) (i : Fin 7) :
    (w.flip i).syndrome =
      ⟨w.syndrome.s1 ^^ ((i : Nat) + 1).testBit 0, w.syndrome.s2 ^^ ((i : Nat) + 1).testBit 1,
        w.syndrome.s3 ^^ ((i : Nat) + 1).testBit 2⟩ := by
  fin_cases i <;> simp [Word7.flip, Word7.syndrome, Nat.testBit_succ]

theorem Syndrome.errorPosition_xor (s : Syndrome) (k : Fin 8) :
    (errorPosition ⟨s.s1 ^^ (k : Nat).testBit 0, s.s2 ^^ (k : Nat).testBit 1, s.s3 ^^ (k : Nat).testBit 2⟩ : Nat) =
      (s.errorPosition : Nat) ^^^ (k : Nat) := by
  rcases s with ⟨_ | _, _ | _, _ | _⟩ <;> revert k <;> decide

theorem Syndrome.errorPosition_eq_zero {s : Syndrome} : s.errorPosition = 0 ↔ s = ⟨false, false, false⟩ := by
  rcases s with ⟨_ | _, _ | _, _ | _⟩ <;> decide

theorem Word7.errorPosition_flip (w : Word7) (i : Fin 7) :
    ((w.flip i).syndrome.errorPosition : Nat) = (w.syndrome.errorPosition : Nat) ^^^ ((i : Nat) + 1) := by
  rw [w.syndrome_flip i]
  exact w.syndrome.errorPosition_xor i.succ

/-- A group of even parity gives its parity bit. -/
theorem parity_bit_of_even : ∀ p x y z : Bool, (p ^^ x ^^ y ^^ z) = false → (x ^^ y ^^ z) = p := by
  decide

/-- The words of zero syndrome are the codewords of their own data bits: each check gives its parity bit. -/
theorem encodeWord_dataBits {w : Word7} (h : w.syndrome = ⟨false, false, false⟩) : encodeWord w.dataBits = w := by
  obtain ⟨h1, h2, h3⟩ := Syndrome.mk.inj h
  simp only [encodeWord, Word7.dataBits, parity_bit_of_even _ _ _ _ h1, parity_bit_of_even _ _ _ _ h2,
    parity_bit_of_even _ _ _ _ h3]

theorem syndrome_eq_zero_iff (w : Word7) : w.syndrome = ⟨false, false, false⟩ ↔ ∃ d, encodeWord d = w := by
  constructor
  · exact fun h => ⟨w.dataBits, encodeWord_dataBits h⟩
  · rintro ⟨d, rfl⟩
    exact syndrome_encodeWord d

/-- The correction leads to a word of zero syndrome: the flip XORs the error position with itself. -/
theorem Word7.syndrome_correct (w : Word7) : (w.correct w.syndrome.errorPosition).syndrome = ⟨false, false, false⟩ := by
  refine Syndrome.errorPosition_eq_zero.1 (Fin.ext ?_)
  cases he : w.syndrome.errorPosition using Fin.cases with
  | zero => exact congrArg Fin.val he
  | succ i =>
    rw [Word7.correct_succ, w.errorPosition_flip, he, Fin.val_succ, Nat.xor_self]
    rfl

theorem decodeWord_encodeWord (d : DataWord) :
    decodeWord (encodeWord d) = ⟨d, ⟨false, false, false⟩, 0, encodeWord d⟩ := by
  have h0 : Syndrome.errorPosition ⟨false, false, false⟩ = 0 := rfl
  simp [decodeWord, h0]

theorem correctedCodeword_decodeWord (w : Word7) :
    (decodeWord w).correctedCodeword = encodeWord (decodeWord w).dataBits :=
  (encodeWord_dataBits w.syndrome_correct).symm

theorem encodeWord_xor (a b : DataWord) : encodeWord (a.xor b) = (encodeWord a).xor (encodeWord b) := by
  simp [encodeWord, DataWord.xor, Word7.xor, Bool.xor_left_comm, Bool.xor_comm]

/-! ## Double and triple errors -/

/-- Three flips of which the last has its own index do not cancel. -/
theorem Word7.flip_flip_flip_ne {w : Word7} {i j k : Fin 7} (hi : k ≠ i) (hj : k ≠ j) :
    ((w.flip i).flip j).flip k ≠ w := by
  intro h
  have hk := congrArg (fun v => v.get k) h
  simp [hi, hj] at hk

/-- Two positions XOR to a third one, neither 0 nor one of the two. -/
theorem third_position : ∀ i j : Fin 7, i ≠ j →
    ∃ k : Fin 7, ((i : Nat) + 1) ^^^ ((j : Nat) + 1) = (k : Nat) + 1 ∧ k ≠ i ∧ k ≠ j := by
  decide

/-- Two flips of a codeword are taken for one flip at a third index. -/
theorem errorPosition_double_flip (d : DataWord) {i j : Fin 7} (hij : i ≠ j) :
    ∃ k : Fin 7, (((encodeWord d).flip i).flip j).syndrome.errorPosition = k.succ ∧ k ≠ i ∧ k ≠ j := by
  obtain ⟨k, hxor, hi, hj⟩ := third_position i j hij
  refine ⟨k, Fin.ext ?_, hi, hj⟩
  rw [Word7.errorPosition_flip, errorPosition_flip_encodeWord, Fin.val_succ, Fin.val_succ, hxor]

namespace Machine

/-- Settles O11: the sixteen words are checked on the W bus against the zero syndrome. -/
theorem codewordsAreTheZeroSyndromeWords : Obligations.CodewordsAreTheZeroSyndromeWords := by
  refine ⟨fun s d => ?_, syndrome_eq_zero_iff, fun w => ?_⟩
  · refine ⟨_, _, step_present s _, congrArg some (answer_decodeRequest _), ?_, ?_⟩
    · rw [decodeWord_encodeWord]
    · rw [decodeWord_encodeWord]
  · rw [← syndrome_eq_zero_iff]
    obtain ⟨W, rfl⟩ : ∃ W, w = .ofBus W := ⟨w.toBus, w.ofBus_toBus.symm⟩
    rw [Word7.toBus_ofBus]
    revert W
    decide

/-- Settles O13: the correction makes a third flip, which cannot lead back to the codeword that was sent. The 560 words
of three flips are counted by running DECODE on each. -/
theorem doubleErrorsAreMiscorrected : Obligations.DoubleErrorsAreMiscorrected := by
  refine ⟨fun s d i j hij => ?_, by decide +kernel, by decide +kernel⟩
  obtain ⟨k, he, hi, hj⟩ := errorPosition_double_flip d hij
  refine ⟨_, _, step_present s _, congrArg some (answer_decodeRequest _), ?_⟩
  generalize hw : ((encodeWord d).flip i).flip j = w at he ⊢
  have hpos : (decodeWord w).errorPosition = k.succ := he
  have hflip : (decodeWord w).correctedCodeword = w.flip k := by
    rw [← w.correct_succ, ← he]
    rfl
  have hne : w.flip k ≠ encodeWord d := hw ▸ Word7.flip_flip_flip_ne hi hj
  refine ⟨?_, ?_, ?_, fun hdata => hne ?_, correctedCodeword_decodeWord w⟩
  · rw [hpos]
    exact Fin.succ_ne_zero k
  · rw [hpos, Fin.val_succ]
    exact fun h => hi (Fin.ext (Nat.succ.inj h))
  · rw [hpos, Fin.val_succ]
    exact fun h => hj (Fin.ext (Nat.succ.inj h))
  · rw [← hflip, correctedCodeword_decodeWord, hdata]

/-- Settles O14: a corrected codeword is the codeword of the data it was read with. -/
theorem correctionIsIdempotent : Obligations.CorrectionIsIdempotent := by
  intro s t b r hstep hr
  rw [step_present, answer_decodeRequest] at hstep
  cases hstep
  cases hr
  refine ⟨⟨_, correctedCodeword_decodeWord b⟩, _, _, step_present _ _, congrArg some (answer_decodeRequest _), ?_⟩
  rw [correctedCodeword_decodeWord, decodeWord_encodeWord]
  exact ⟨rfl, rfl⟩

/-- Settles O15. -/
theorem flipXorsItsPositionIntoTheErrorPosition : Obligations.FlipXorsItsPositionIntoTheErrorPosition :=
  Word7.errorPosition_flip

/-- Settles O16. -/
theorem encodeIsLinear : Obligations.EncodeIsLinear :=
  ⟨encodeWord_xor, rfl⟩

end Machine
end Sys2Proof
end

section
/-! The assembler (R71) and the nibbles (R113, R114): the numbers that the requests' words stand for. -/

namespace Sys2Proof

theorem Word7.toNat_toBus (w : Word7) :
    w.toBus.toNat = 64 * bitVal w.b7 + 32 * bitVal w.b6 + 16 * bitVal w.b5 + 8 * bitVal w.b4 + 4 * bitVal w.b3 +
      2 * bitVal w.b2 + bitVal w.b1 := by
  rcases w with ⟨_ | _, _ | _, _ | _, _ | _, _ | _, _ | _, _ | _⟩ <;> rfl

/-- A number that is 0 or 1 is a bit. -/
theorem exists_bitVal {n : Nat} (h : n ≤ 1) : ∃ b : Bool, n = bitVal b := by
  interval_cases n
  · exact ⟨false, rfl⟩
  · exact ⟨true, rfl⟩



namespace Machine

theorem toNat_encodeRequest (d : DataWord) : (encodeRequest d).toNat = d.nib := by
  rw [← d.toNat_toBus, encodeRequest, encodeCmd, BitVec.toNat_append, BitVec.toNat_append]
  simp

theorem toNat_decodeRequest (w : Word7) : (decodeRequest w).toNat = 128 + w.toBus.toNat := by
  rw [decodeRequest, encodeCmd]
  generalize w.toBus = W
  revert W
  decide

/-! ## Lines and their refusal -/

theorem bitList_eq_true_iff (n : Nat) (l : List Nat) : bitList n l = true ↔ l.length = n ∧ ∀ b ∈ l, b ≤ 1 := by
  simp [bitList]

theorem dataWordOfList_isSome {l : List Nat} (h : l.length = 4) : ∃ d, dataWordOfList l = some d := by
  obtain ⟨d1, d2, d3, d4, rfl⟩ := List.length_eq_four.1 h
  exact ⟨_, rfl⟩

theorem word7OfList_isSome {l : List Nat} (h : l.length = 7) : ∃ w, word7OfList l = some w := by
  match l, h with
  | [b1, b2, b3, b4, b5, b6, b7], _ => exact ⟨_, rfl⟩

/-- A line in range gives an ENCODE request, a DECODE request or the word that it writes out. -/
theorem assemble_of_inRange {line : AsmLine} (h : line.inRange = true) :
    (∃ d, line.kind = .word ∧ assemble line = some (encodeRequest d)) ∨
    (∃ w, line.kind = .result ∧ assemble line = some (decodeRequest w)) ∨
    ∃ c, line = .rawCmd c ∧ assemble line = some (BitVec.ofNat 8 c) := by
  cases line with
  | encodeList l =>
    obtain ⟨d, hd⟩ := dataWordOfList_isSome ((bitList_eq_true_iff 4 l).1 h).1
    exact .inl ⟨d, rfl, by simp [assemble, h, hd]⟩
  | encodeImm n => exact .inl ⟨_, rfl, if_pos h⟩
  | decodeList l =>
    obtain ⟨w, hw⟩ := word7OfList_isSome ((bitList_eq_true_iff 7 l).1 h).1
    exact .inr (.inl ⟨w, rfl, by simp [assemble, h, hw]⟩)
  | decodeImm w => exact .inr (.inl ⟨_, rfl, if_pos h⟩)
  | rawCmd c => exact .inr (.inr ⟨c, rfl, if_pos h⟩)

/-- A line is refused exactly where its operand is out of range. -/
theorem assemble_eq_none_iff (line : AsmLine) : assemble line = none ↔ line.inRange = false := by
  cases h : line.inRange with
  | false => simp [assemble, h]
  | true =>
    rcases assemble_of_inRange h with ⟨d, -, hd⟩ | ⟨w, -, hw⟩ | ⟨c, -, hc⟩
    · simp [hd]
    · simp [hw]
    · simp [hc]

theorem assemble_list_eq_none_iff (n : Nat) (l : List Nat) :
    bitList n l = false ↔ ¬(l.length = n ∧ ∀ b ∈ l, b ≤ 1) := by
  rw [← bitList_eq_true_iff, Bool.not_eq_true]

/-- Only `.cmd` writes bits into CMD[6:4] of an ENCODE word. -/
theorem assembled_of_assemble {line : AsmLine} {c : Cmd} (h : assemble line = some c)
    (hraw : ∀ k, line ≠ .rawCmd k) : (decodeCmd c).assembled = true := by
  have hin : line.inRange = true := by
    by_contra hout
    rw [(assemble_eq_none_iff line).2 (by simpa using hout)] at h
    cases h
  rcases assemble_of_inRange hin with ⟨d, -, hd⟩ | ⟨w, -, hw⟩ | ⟨k, hk, -⟩
  · cases hd.symm.trans h
    simp [Instr.assembled]
  · cases hw.symm.trans h
    simp [Instr.assembled]
  · exact absurd hk (hraw k)

/-! ## The words of the table -/

theorem assemble_encodeList {d1 d2 d3 d4 : Nat} (h1 : d1 ≤ 1) (h2 : d2 ≤ 1) (h3 : d3 ≤ 1) (h4 : d4 ≤ 1) :
    (assemble (.encodeList [d1, d2, d3, d4])).map BitVec.toNat = some (8 * d1 + 4 * d2 + 2 * d3 + d4) := by
  have hin : AsmLine.inRange (.encodeList [d1, d2, d3, d4]) = true := by
    simp [AsmLine.inRange, bitList, h1, h2, h3, h4]
  obtain ⟨b1, rfl⟩ := exists_bitVal h1
  obtain ⟨b2, rfl⟩ := exists_bitVal h2
  obtain ⟨b3, rfl⟩ := exists_bitVal h3
  obtain ⟨b4, rfl⟩ := exists_bitVal h4
  simp [assemble, hin, dataWordOfList, toNat_encodeRequest, DataWord.ofInts, DataWord.nib]

theorem assemble_decodeList {b1 b2 b3 b4 b5 b6 b7 : Nat} (h1 : b1 ≤ 1) (h2 : b2 ≤ 1) (h3 : b3 ≤ 1) (h4 : b4 ≤ 1)
    (h5 : b5 ≤ 1) (h6 : b6 ≤ 1) (h7 : b7 ≤ 1) :
    (assemble (.decodeList [b1, b2, b3, b4, b5, b6, b7])).map BitVec.toNat =
      some (128 + 64 * b7 + 32 * b6 + 16 * b5 + 8 * b4 + 4 * b3 + 2 * b2 + b1) := by
  have hin : AsmLine.inRange (.decodeList [b1, b2, b3, b4, b5, b6, b7]) = true := by
    simp [AsmLine.inRange, bitList, h1, h2, h3, h4, h5, h6, h7]
  obtain ⟨b1, rfl⟩ := exists_bitVal h1
  obtain ⟨b2, rfl⟩ := exists_bitVal h2
  obtain ⟨b3, rfl⟩ := exists_bitVal h3
  obtain ⟨b4, rfl⟩ := exists_bitVal h4
  obtain ⟨b5, rfl⟩ := exists_bitVal h5
  obtain ⟨b6, rfl⟩ := exists_bitVal h6
  obtain ⟨b7, rfl⟩ := exists_bitVal h7
  simp [assemble, hin, word7OfList, toNat_decodeRequest, Word7.ofInts, Word7.toNat_toBus, Nat.add_assoc]

theorem assemble_encodeImm {n : Nat} (h : n < 16) : (assemble (.encodeImm n)).map BitVec.toNat = some n := by
  simp [assemble, AsmLine.inRange, h, toNat_encodeRequest, ← DataWord.toNat_toBus, Nat.mod_eq_of_lt h]

theorem assemble_decodeImm {w : Nat} (h : w < 128) : (assemble (.decodeImm w)).map BitVec.toNat = some (128 + w) := by
  simp [assemble, AsmLine.inRange, h, toNat_decodeRequest, Nat.mod_eq_of_lt h]

theorem assemble_rawCmd {c : Nat} (h : c < 256) : (assemble (.rawCmd c)).map BitVec.toNat = some c := by
  simp [assemble, AsmLine.inRange, h, Nat.mod_eq_of_lt h]

/-- Settles O19, line form by line form. -/
theorem assemblerGivesTheTablesWords : Obligations.AssemblerGivesTheTablesWords := by
  refine ⟨fun d1 d2 d3 d4 => assemble_encodeList, fun n => assemble_encodeImm,
    fun b1 b2 b3 b4 b5 b6 b7 => assemble_decodeList, fun w => assemble_decodeImm, fun c => assemble_rawCmd,
    fun l => ?_, fun n => ?_, fun l => ?_, fun w => ?_, fun c => ?_, fun line c => assembled_of_assemble⟩
  · rw [assemble_eq_none_iff]
    exact assemble_list_eq_none_iff 4 l
  · simp [assemble_eq_none_iff, AsmLine.inRange]
  · rw [assemble_eq_none_iff]
    exact assemble_list_eq_none_iff 7 l
  · simp [assemble_eq_none_iff, AsmLine.inRange]
  · simp [assemble_eq_none_iff, AsmLine.inRange]

/-! ## Nibbles -/

theorem nibbleOf_high (gray : Nat) : nibbleOf gray .high = gray / 16 % 16 := by
  rw [nibbleOf, Nat.shiftRight_eq_div_pow]
  exact Nat.and_two_pow_sub_one_eq_mod _ 4

theorem nibbleOf_low (gray : Nat) : nibbleOf gray .low = gray % 16 :=
  Nat.and_two_pow_sub_one_eq_mod _ 4

theorem nibbleOf_lt (gray : Nat) (sel : Selector) : nibbleOf gray sel < 16 := by
  cases sel with
  | high => exact nibbleOf_high gray ▸ Nat.mod_lt _ (by decide)
  | low => exact nibbleOf_low gray ▸ Nat.mod_lt _ (by decide)

theorem reassemble_ofNibble (gray : Nat) :
    reassemble (.ofNibble (nibbleOf gray .high)) (.ofNibble (nibbleOf gray .low)) = gray % 256 := by
  rw [reassemble, DataWord.nib_ofNibble _ (nibbleOf_lt gray .high), DataWord.nib_ofNibble _ (nibbleOf_lt gray .low),
    nibbleOf_high, nibbleOf_low]
  omega

/-- Settles O28: the two shifts and masks are a quotient and two remainders. -/
theorem nibblesSplitAndRejoin : Obligations.NibblesSplitAndRejoin := by
  refine ⟨fun gray => ⟨nibbleOf_high gray, nibbleOf_low gray⟩, fun n => ?_, fun n hn => ⟨?_, ?_, ?_⟩,
    fun d => ⟨rfl, d.ofNibble_nib⟩, fun gray hg => ?_⟩
  · simp [DataWord.ofNibble, Nat.testBit_eq_decide_div_mod_eq, beq_eq_decide]
  · rw [DataWord.toNat_toBus, DataWord.nib_ofNibble n hn]
  · rw [toNat_encodeRequest, DataWord.nib_ofNibble n hn]
  · exact DataWord.nib_ofNibble n hn
  · rw [reassemble_ofNibble, Nat.mod_eq_of_lt hg]

end Machine
end Sys2Proof
end

section
/-! Luma (R112). The binary64 sum is the exact one up to a rounding error far under a thousandth, and the exact sum is a
whole number of thousandths, so that only a sum exactly half-way between two integers can round to another one. -/

namespace Sys2Proof.Machine

/-- A quotient of at least `2 ^ 52` units is rounded by at most one part in `2 ^ 53`. -/
theorem b64Round_div_near {n d : Nat} (hd : 0 < d) (h : 2 ^ 52 * d ≤ n) :
    2 ^ 53 * (d * b64Round n d) ≤ 2 ^ 53 * n + n ∧ 2 ^ 53 * n ≤ 2 ^ 53 * (d * b64Round n d) + n := by
  have hq : 2 ^ 52 ≤ n / d := (Nat.le_div_iff_mul_le hd).2 h
  have hlog : 52 ≤ Nat.log2 (n / d) := (Nat.le_log2 (by omega)).2 hq
  obtain ⟨k, hk⟩ := Nat.exists_eq_add_of_le hlog
  have hunit : 2 ^ 52 * (d * 2 ^ k) ≤ n := by
    have hle : 2 ^ (52 + k) ≤ n / d := hk ▸ Nat.log2_self_le (by omega)
    calc 2 ^ 52 * (d * 2 ^ k) = 2 ^ (52 + k) * d := by ring
      _ ≤ n := (Nat.le_div_iff_mul_le hd).1 hle
  obtain ⟨hlo, hhi⟩ := roundTiesToEven_near n (d * 2 ^ k) (by positivity)
  have hround : d * b64Round n d = d * 2 ^ k * roundTiesToEven n (d * 2 ^ k) := by
    simp only [b64Round, hk, Nat.add_sub_cancel_left]
    ring
  rw [hround]
  rw [mul_assoc 2 (d * 2 ^ k)] at hlo hhi
  generalize d * 2 ^ k * roundTiesToEven n (d * 2 ^ k) = m at hlo hhi ⊢
  omega

theorem b64Unit_large : 2 ^ 62 ≤ b64Unit := by
  rw [b64Unit, Nat.pow_le_pow_iff_right Nat.one_lt_two]
  decide

theorem b64Unit_pos : 0 < b64Unit := lt_of_lt_of_le (by decide) b64Unit_large

/-- A rounded coefficient of so many thousandths times a channel is the exact product up to `2 ^ -30` thousandths. -/
theorem b64Scale_coefficient_near {w c : Nat} (hw : 0 < w) (hw' : w ≤ 1000) (hc : c ≤ 255) :
    2 ^ 30 * (1000 * b64Scale (b64Coefficient w 1000) c) ≤ 2 ^ 30 * (w * c * b64Unit) + b64Unit ∧
    2 ^ 30 * (w * c * b64Unit) ≤ 2 ^ 30 * (1000 * b64Scale (b64Coefficient w 1000) c) + b64Unit := by
  have hU := b64Unit_large
  have hlarge : 2 ^ 52 * 1000 ≤ w * b64Unit := by nlinarith
  obtain ⟨hcoef, hcoef'⟩ := b64Round_div_near (d := 1000) (by decide) hlarge
  obtain ⟨hprod, hprod'⟩ := b64Round_near (b64Coefficient w 1000 * c)
  have hbound : w * c * b64Unit ≤ 255000 * b64Unit := Nat.mul_le_mul_right _ (by nlinarith)
  have hscaled := Nat.mul_le_mul_right c hcoef
  have hscaled' := Nat.mul_le_mul_right c hcoef'
  have e1 : 2 ^ 53 * (1000 * b64Round (w * b64Unit) 1000) * c = 2 ^ 53 * 1000 * (b64Coefficient w 1000 * c) := by
    rw [b64Coefficient]
    ring
  have e2 : (2 ^ 53 * (w * b64Unit) + w * b64Unit) * c = (2 ^ 53 + 1) * (w * c * b64Unit) := by ring
  have e3 : 2 ^ 53 * (w * b64Unit) * c = 2 ^ 53 * (w * c * b64Unit) := by ring
  have e4 : (2 ^ 53 * (1000 * b64Round (w * b64Unit) 1000) + w * b64Unit) * c =
      2 ^ 53 * 1000 * (b64Coefficient w 1000 * c) + w * c * b64Unit := by
    rw [b64Coefficient]
    ring
  rw [e1, e2] at hscaled
  rw [e3, e4] at hscaled'
  rw [b64Scale]
  generalize b64Round (b64Coefficient w 1000 * c) 1 = p at *
  generalize b64Coefficient w 1000 * c = x at *
  generalize w * c * b64Unit = y at *
  generalize b64Unit = U at *
  omega

/-- A binary64 sum of at most 1000 units of 1 is the exact one up to `2 ^ -40` units of 1. -/
theorem b64Add_near {a b : Nat} (h : a + b ≤ 1000 * b64Unit) :
    2 ^ 40 * b64Add a b ≤ 2 ^ 40 * (a + b) + b64Unit ∧ 2 ^ 40 * (a + b) ≤ 2 ^ 40 * b64Add a b + b64Unit := by
  obtain ⟨hlo, hhi⟩ := b64Round_near (a + b)
  rw [b64Add]
  generalize b64Round (a + b) 1 = q at *
  generalize b64Unit = U at *
  omega

/-- A thousand times the exact luma of a pixel with the default weights. -/
def lumaSum (p : Pixel) : Nat := 299 * p.r.toNat + 587 * p.g.toNat + 114 * p.b.toNat

theorem lumaSum_le (p : Pixel) : lumaSum p ≤ 255000 := by
  have hr : p.r.toNat < 2 ^ 8 := p.r.isLt
  have hg : p.g.toNat < 2 ^ 8 := p.g.isLt
  have hb : p.b.toNat < 2 ^ 8 := p.b.isLt
  unfold lumaSum
  omega

theorem exactLuma_default (p : Pixel) : exactLuma .default p = (lumaSum p + 500) / 1000 := by
  simp only [exactLuma, lumaSum, LumaWeights.default]
  omega

/-- The integer nearest to a value less than a thousandth away from the exact luma: the exact rounding, or one less
where the exact luma is half-way between two integers. -/
theorem b64MathRound_of_near {a n : Nat} (hlo : 1000 * a < n * b64Unit + b64Unit)
    (hhi : n * b64Unit < 1000 * a + b64Unit) :
    b64MathRound a = (n + 500) / 1000 ∨ (n % 1000 = 500 ∧ b64MathRound a + 1 = (n + 500) / 1000) := by
  have hU := b64Unit_pos
  rw [b64MathRound]
  generalize b64Unit = U at *
  have hdiv := Nat.div_mul_le_self (2 * a + U) (2 * U)
  have hlt := Nat.lt_div_mul_add (a := 2 * a + U) (b := 2 * U) (by omega)
  generalize (2 * a + U) / (2 * U) = q at *
  have hq : 1000 * q < n + 501 := by nlinarith
  have hq' : n + 499 < 1000 * (q + 1) := by nlinarith
  omega

/-- The binary64 luma of a pixel rounds a value less than a thousandth away from the exact one. -/
theorem binary64Luma_default (p : Pixel) :
    binary64Luma .default p = (lumaSum p + 500) / 1000 ∨
      (lumaSum p % 1000 = 500 ∧ binary64Luma .default p + 1 = (lumaSum p + 500) / 1000) := by
  have hU := b64Unit_pos
  have hr : p.r.toNat < 2 ^ 8 := p.r.isLt
  have hg : p.g.toNat < 2 ^ 8 := p.g.isLt
  have hb : p.b.toNat < 2 ^ 8 := p.b.isLt
  have hsum : lumaSum p * b64Unit =
      299 * p.r.toNat * b64Unit + 587 * p.g.toNat * b64Unit + 114 * p.b.toNat * b64Unit := by
    rw [lumaSum]
    ring
  have hle : lumaSum p * b64Unit ≤ 255000 * b64Unit := Nat.mul_le_mul_right _ (lumaSum_le p)
  obtain ⟨r1, r2⟩ := b64Scale_coefficient_near (w := 299) (c := p.r.toNat) (by decide) (by decide) (by omega)
  obtain ⟨g1, g2⟩ := b64Scale_coefficient_near (w := 587) (c := p.g.toNat) (by decide) (by decide) (by omega)
  obtain ⟨b1, b2⟩ := b64Scale_coefficient_near (w := 114) (c := p.b.toNat) (by decide) (by decide) (by omega)
  have hluma : binary64Luma .default p = b64MathRound (b64Add
      (b64Add (b64Scale (b64Coefficient 299 1000) p.r.toNat) (b64Scale (b64Coefficient 587 1000) p.g.toNat))
      (b64Scale (b64Coefficient 114 1000) p.b.toNat)) := rfl
  rw [hluma]
  generalize b64Scale (b64Coefficient 299 1000) p.r.toNat = x at *
  generalize b64Scale (b64Coefficient 587 1000) p.g.toNat = y at *
  generalize b64Scale (b64Coefficient 114 1000) p.b.toNat = z at *
  obtain ⟨s1, s2⟩ := b64Add_near (a := x) (b := y) (by omega)
  obtain ⟨t1, t2⟩ := b64Add_near (a := b64Add x y) (b := z) (by omega)
  refine b64MathRound_of_near ?_ ?_ <;> omega

theorem lumaGray_binary64 (p : Pixel) : lumaGray ⟨.binary64, .default⟩ p = binary64Luma .default p := rfl

theorem lumaGray_exact (p : Pixel) : lumaGray ⟨.exact, .default⟩ p = (lumaSum p + 500) / 1000 :=
  exactLuma_default p

/-- The rounded luma of an image's pixel, whatever the arithmetic, is at most the exact one. -/
theorem lumaGray_default_le (arith : LumaArith) (p : Pixel) :
    lumaGray ⟨arith, .default⟩ p ≤ (lumaSum p + 500) / 1000 := by
  cases arith with
  | exact => exact (lumaGray_exact p).le
  | binary64 =>
    rw [lumaGray_binary64]
    rcases binary64Luma_default p with h | ⟨-, h⟩ <;> omega

theorem lumaGray_le_255 (arith : LumaArith) (p : Pixel) : lumaGray ⟨arith, .default⟩ p ≤ 255 := by
  have hle := lumaGray_default_le arith p
  have hsum := lumaSum_le p
  omega

/-- A gray pixel's sum is a whole number of units, so neither arithmetic rounds it away. -/
theorem lumaGray_gray (arith : LumaArith) (v : BitVec 8) : lumaGray ⟨arith, .default⟩ ⟨v, v, v⟩ = v.toNat := by
  have hsum : lumaSum ⟨v, v, v⟩ = 1000 * v.toNat := by
    simp only [lumaSum]
    omega
  cases arith with
  | exact =>
    rw [lumaGray_exact, hsum]
    omega
  | binary64 =>
    rw [lumaGray_binary64]
    rcases binary64Luma_default ⟨v, v, v⟩ with h | ⟨htie, -⟩ <;> omega

/-- Settles O26. -/
theorem lumaStaysInRange : Obligations.LumaStaysInRange :=
  ⟨lumaGray_le_255, lumaGray_gray, lumaGray_exact⟩

/-- Settles O27: the arithmetics agree up to ties, and the spec's example is evaluated. -/
theorem lumaArithmeticsDifferOnlyAtTies : Obligations.LumaArithmeticsDifferOnlyAtTies := by
  refine ⟨fun p => ?_, by decide, by decide +kernel⟩
  rw [lumaGray_binary64, lumaGray_exact]
  exact binary64Luma_default p

end Sys2Proof.Machine
end

section
/-! The start of a run: what its raw inputs must be (R110, R111), the clamped region (R128), and the step that starts
it (R129, R173). -/

namespace Sys2Proof.Machine

/-! ## The preconditions -/

theorem HostNumber.size?_eq_some (n : HostNumber) (k : Nat) : n.size? = some k ↔ n = .finite k := by
  constructor
  · intro h
    unfold HostNumber.size? at h
    split at h
    · rename_i v hv
      split at h
      · rename_i hpos
        cases h
        rw [(HostNumber.int?_eq_some n v).1 hv]
        exact congrArg _ (by exact_mod_cast (Int.toNat_of_nonneg hpos).symm)
      · cases h
    · cases h
  · rintro rfl
    have hint : (HostNumber.finite (k : Rat)).int? = some (k : Int) := (HostNumber.int?_eq_some _ _).2 (by simp)
    simp [HostNumber.size?, hint]

theorem HostNumber.channel?_isSome (n : HostNumber) :
    n.channel?.isSome ↔ ∃ k : Nat, k ≤ 255 ∧ n = .finite k := by
  constructor
  · intro h
    unfold HostNumber.channel? at h
    split at h
    · rename_i v hv
      split at h
      · rename_i hrange
        refine ⟨v.toNat, by omega, ?_⟩
        rw [(HostNumber.int?_eq_some n v).1 hv]
        exact congrArg _ (by exact_mod_cast (Int.toNat_of_nonneg hrange.1).symm)
      · cases h
    · cases h
  · rintro ⟨k, hk, rfl⟩
    have hint : (HostNumber.finite (k : Rat)).int? = some (k : Int) := (HostNumber.int?_eq_some _ _).2 (by simp)
    have hk' : (k : Int) ≤ 255 := by exact_mod_cast hk
    simp [HostNumber.channel?, hint, hk']

/-- A pixel whose channels are integers in 0..255 (R111). -/
def RawPixel.InRange (p : RawPixel) : Prop :=
  ∃ r g b : Nat, r ≤ 255 ∧ g ≤ 255 ∧ b ≤ 255 ∧ p = ⟨.finite r, .finite g, .finite b⟩

theorem RawPixel.pixel?_isSome (p : RawPixel) : p.pixel?.isSome ↔ p.InRange := by
  have hsplit : p.pixel?.isSome ↔ p.r.channel?.isSome ∧ p.g.channel?.isSome ∧ p.b.channel?.isSome := by
    unfold RawPixel.pixel?
    cases p.r.channel? <;> cases p.g.channel? <;> cases p.b.channel? <;> simp
  rw [hsplit, HostNumber.channel?_isSome, HostNumber.channel?_isSome, HostNumber.channel?_isSome]
  constructor
  · rintro ⟨⟨r, hr, er⟩, ⟨g, hg, eg⟩, b, hb, eb⟩
    exact ⟨r, g, b, hr, hg, hb, by rw [← er, ← eg, ← eb]⟩
  · rintro ⟨r, g, b, hr, hg, hb, rfl⟩
    exact ⟨⟨r, hr, rfl⟩, ⟨g, hg, rfl⟩, b, hb, rfl⟩

theorem readPixels_isSome (l : List RawPixel) : (readPixels l).isSome ↔ ∀ p ∈ l, p.InRange := by
  induction l with
  | nil => simp [readPixels]
  | cons p l ih =>
    rw [List.forall_mem_cons, ← ih, ← RawPixel.pixel?_isSome, readPixels]
    cases p.pixel? <;> cases readPixels l <;> simp

theorem readPixels_length {l : List RawPixel} {ps : List Pixel} (h : readPixels l = some ps) :
    ps.length = l.length := by
  induction l generalizing ps with
  | nil =>
    cases h
    rfl
  | cons p l ih =>
    unfold readPixels at h
    split at h
    · rename_i q qs hq hqs
      cases h
      simp [ih hqs]
    · cases h

theorem RawImage.image?_isSome (img : RawImage) : img.image?.isSome ↔ img.InRange := by
  constructor
  · intro h
    unfold RawImage.image? at h
    split at h
    · rename_i w hgt ps hw hh hps
      split at h
      · rename_i hlen
        refine ⟨w, hgt, (HostNumber.size?_eq_some _ _).1 hw, (HostNumber.size?_eq_some _ _).1 hh, ?_,
          (readPixels_isSome _).1 (by rw [hps]; rfl)⟩
        rw [← readPixels_length hps, hlen]
      · cases h
    · cases h
  · rintro ⟨w, hgt, hw, hh, hlen, hpx⟩
    obtain ⟨ps, hps⟩ := Option.isSome_iff_exists.1 ((readPixels_isSome img.pixels).2 hpx)
    simp [RawImage.image?, (HostNumber.size?_eq_some _ _).2 hw, (HostNumber.size?_eq_some _ _).2 hh, hps,
      readPixels_length hps, hlen]

theorem HostNumber.real?_isSome (n : HostNumber) : n.real?.isSome ↔ ∃ q, n = .finite q := by
  cases n <;> simp [HostNumber.real?]

theorem Selection.rect?_isSome (sel : Selection) : sel.rect?.isSome ↔ sel.AllFinite := by
  have hsplit : sel.rect?.isSome ↔
      sel.x.real?.isSome ∧ sel.y.real?.isSome ∧ sel.w.real?.isSome ∧ sel.h.real?.isSome := by
    unfold Selection.rect?
    cases sel.x.real? <;> cases sel.y.real? <;> cases sel.w.real? <;> cases sel.h.real? <;> simp
  rw [hsplit]
  simp only [HostNumber.real?_isSome]
  constructor
  · rintro ⟨⟨x, ex⟩, ⟨y, ey⟩, ⟨w, ew⟩, h, eh⟩
    exact ⟨x, y, w, h, by rw [← ex, ← ey, ← ew, ← eh]⟩
  · rintro ⟨x, y, w, h, rfl⟩
    exact ⟨⟨x, rfl⟩, ⟨y, rfl⟩, ⟨w, rfl⟩, h, rfl⟩

/-! ## The step that starts a run -/

/-- The step of an idle host without a program is the start of a run, where its inputs are there. -/
theorem step_startOrIdle {s : State} (hi : s.Idle) (hp : s.host.program = []) : step s = startOrIdle s := by
  obtain ⟨hc, ho, hr, hw⟩ := hi
  simp only [step_host hc ho, hostStep, hr, hw, hp]

theorem step_startRun {s : State} {img : RawImage} {sel : Selection} {src : DrawSource} (hi : s.Idle)
    (hp : s.host.program = []) (himg : s.host.image = some img) (hsel : s.host.selection = some sel)
    (hsrc : s.host.source = some src) : step s = startRun img sel src s := by
  rw [step_startOrIdle hi hp]
  simp only [startOrIdle, himg, hsel, hsrc]

/-- Settles O21: the run is refused where one of the two inputs is not read. -/
theorem runIsRefusedExactlyOnBrokenPreconditions : Obligations.RunIsRefusedExactlyOnBrokenPreconditions := by
  intro s img sel src hi hp himg hsel hsrc
  rw [step_startRun hi hp himg hsel hsrc, ← RawImage.image?_isSome, ← Selection.rect?_isSome]
  unfold startRun
  cases img.image? with
  | none => simp
  | some image =>
    cases sel.rect? with
    | none => simp
    | some rect => by_cases hd : (clampRegion image rect).degenerate = true <;> simp [hd]

/-- Settles O22. -/
theorem hostWaitsForItsInputs : Obligations.HostWaitsForItsInputs := by
  intro s hi hp hmissing
  rw [step_startOrIdle hi hp, startOrIdle]
  split
  next img sel src himg hsel hsrc => simp [himg, hsel, hsrc] at hmissing
  next => rfl

/-- What a run starts with: its own inputs, and a fresh result set. -/
def RunState.initial (luma : LumaParams) (img : Image) (sel : Rect) (src : DrawSource) : RunState :=
  ⟨luma, src, (clampRegion img sel).sites img, .high, .present, .fresh img⟩

/-- A ready host starts its run. -/
theorem step_ready {s : State} {img : Image} {sel : Rect} {src : DrawSource} (h : s.ReadyToRun img sel src)
    (hd : (clampRegion img sel).degenerate = false) :
    step s = .next (s.takeInputs.withRun (.initial s.host.luma img sel src)) := by
  obtain ⟨hi, hp, ⟨raw, hraw, himg⟩, ⟨rawSel, hrawSel, hsel⟩, hsrc⟩ := h
  rw [step_startRun hi hp hraw hrawSel hsrc]
  simp [startRun, himg, hsel, hd, RunState.initial]

/-- A run over a degenerate region has ended with the step that starts it. -/
theorem step_ready_degenerate {s : State} {img : Image} {sel : Rect} {src : DrawSource} (h : s.ReadyToRun img sel src)
    (hd : (clampRegion img sel).degenerate = true) :
    step s = .next (s.takeInputs.endRun (.regionTooSmall (.fresh img))) := by
  obtain ⟨hi, hp, ⟨raw, hraw, himg⟩, ⟨rawSel, hrawSel, hsel⟩, hsrc⟩ := h
  rw [step_startRun hi hp hraw hrawSel hsrc]
  simp [startRun, himg, hsel, hd]

/-- Settles O23. -/
theorem runStartsWithAFreshResultSet : Obligations.RunStartsWithAFreshResultSet := by
  intro s img sel src h
  refine ⟨fun hd => ?_, fun hd => ?_⟩
  · exact ⟨_, .initial s.host.luma img sel src, step_ready h hd, rfl, rfl, rfl, rfl, rfl, rfl, rfl, rfl, rfl, rfl, rfl,
      h.idle.no_request, rfl⟩
  · exact ⟨_, .fresh img, step_ready_degenerate h hd, rfl, rfl, rfl, rfl, rfl, rfl⟩

theorem Region.degenerate_iff (rg : Region) : rg.degenerate = true ↔ rg.sw = 0 ∨ rg.sh = 0 := by
  simp [Region.degenerate]

/-- Settles O24. -/
theorem degenerateRegionEndsTheRunAtOnce : Obligations.DegenerateRegionEndsTheRunAtOnce := by
  intro s img sel src h hempty
  have hstep := step_ready_degenerate h ((Region.degenerate_iff _).2 hempty)
  refine ⟨_, hstep, rfl, h.idle.no_request, rfl, ?_, rfl⟩
  rw [requestTrace_succ hstep 0, h.idle.no_request]
  rfl

/-! ## The clamped region -/

theorem clampStart_eq (v : Rat) : (clampStart v : Int) = max 0 v.floor :=
  Int.toNat_of_nonneg (le_max_left 0 _)

theorem clampExtent_eq (size start : Nat) (v : Rat) :
    (clampExtent size start v : Int) = max 0 (min ((size : Int) - start) v.floor) :=
  Int.toNat_of_nonneg (le_max_left 0 _)

theorem clampStart_of_neg {v : Rat} (h : v < 0) : clampStart v = 0 := by
  have hfloor : ⌊v⌋ < 0 := Int.floor_lt.2 (by exact_mod_cast h)
  have hdef : ⌊v⌋ = v.floor := rfl
  have heq := clampStart_eq v
  omega

/-- A clamped extent ends within the image. -/
theorem start_add_clampExtent_le {size start : Nat} {v : Rat} (h : 0 < clampExtent size start v) :
    start + clampExtent size start v ≤ size := by
  have heq := clampExtent_eq size start v
  omega

theorem clampExtent_of_le {size start : Nat} (v : Rat) (h : size ≤ start) : clampExtent size start v = 0 := by
  have heq := clampExtent_eq size start v
  omega

/-- A full image has a pixel at each of its points. -/
theorem Image.exists_at {img : Image} (hf : img.Full) {x y : Nat} (hx : x < img.width) (hy : y < img.height) :
    ∃ p, img.at x y = some p := by
  have hlt : y * img.width + x < img.pixels.length := by
    rw [hf]
    nlinarith
  exact ⟨img.pixels[y * img.width + x], by simp [Image.at, hx, hy, hlt]⟩

/-- The clamped region lies inside the image. -/
theorem clampRegion_inside {img : Image} {sel : Rect} {x y : Nat} (h : (clampRegion img sel).Contains x y) :
    x < img.width ∧ y < img.height := by
  obtain ⟨hx, hx', hy, hy'⟩ := h
  have hsw : 0 < (clampRegion img sel).sw := by omega
  have hsh : 0 < (clampRegion img sel).sh := by omega
  exact ⟨hx'.trans_le (start_add_clampExtent_le hsw), hy'.trans_le (start_add_clampExtent_le hsh)⟩

/-- Settles O25, from the formulas of a start and of an extent. -/
theorem clampedRegionFollowsItsFormulas : Obligations.ClampedRegionFollowsItsFormulas := by
  intro img sel
  refine ⟨clampStart_eq _, clampStart_eq _, clampExtent_eq _ _ _, clampExtent_eq _ _ _, fun hneg => ?_,
    clampExtent_of_le _, start_add_clampExtent_le, start_add_clampExtent_le, fun hf x y hin => ?_⟩
  · have hsx : clampStart sel.x = 0 := clampStart_of_neg hneg
    have hsw := clampExtent_eq img.width (clampStart sel.x) sel.w
    rw [hsx, Nat.cast_zero, sub_zero] at hsw
    refine ⟨hsx, ?_⟩
    rw [← hsw, ← hsx]
    rfl
  · obtain ⟨hx, hy⟩ := clampRegion_inside hin
    exact Image.exists_at hf hx hy

end Sys2Proof.Machine
end

section
/-! `runOnRegion` (R115 to R126): the pixels of a region in row-major order, what one pixel does to the result set, and
so what the whole run does to the draws, the records and the two buffers. -/

namespace Sys2Proof.Machine

/-- Where an optional value is there for all of a list, filtering drops nothing. -/
theorem map_some_filterMap {α β : Type} {f : α → Option β} {l : List α} (h : ∀ a ∈ l, ∃ b, f a = some b) :
    (l.filterMap f).map some = l.map f := by
  induction l with
  | nil => rfl
  | cons a l ih =>
    rw [List.forall_mem_cons] at h
    obtain ⟨⟨b, hb⟩, hl⟩ := h
    simp [hb, ih hl]

/-! ## The pixels of a region -/

/-- Row-major order over `h` rows of `w` counts the places through: place p is column p % w of row p / w. -/
theorem flatMap_range_eq_map_range {α : Type} (f : Nat → Nat → α) (w h : Nat) :
    ((List.range h).flatMap fun dy => (List.range w).map fun dx => f dx dy) =
      (List.range (w * h)).map fun p => f (p % w) (p / w) := by
  induction h with
  | zero => rfl
  | succ h ih =>
    rw [List.range_succ, List.flatMap_append, ih, Nat.mul_succ, List.range_add, List.map_append, List.flatMap_singleton,
      List.map_map]
    refine congrArg _ (List.map_congr_left fun dx hdx => ?_)
    have hlt : dx < w := List.mem_range.1 hdx
    rw [Function.comp_apply, Nat.mul_add_mod, Nat.mod_eq_of_lt hlt, Nat.mul_add_div (by omega), Nat.div_eq_of_lt hlt,
      Nat.add_zero]

/-- The coordinates of place p of a region. -/
def Region.place (rg : Region) (p : Nat) : Nat × Nat := (rg.sx + p % rg.sw, rg.sy + p / rg.sw)

theorem Region.coords_eq (rg : Region) : rg.coords = (List.range (rg.sw * rg.sh)).map rg.place :=
  flatMap_range_eq_map_range (fun dx dy => (rg.sx + dx, rg.sy + dy)) rg.sw rg.sh

theorem Region.contains_place {rg : Region} {p : Nat} (h : p < rg.sw * rg.sh) :
    rg.Contains (rg.place p).1 (rg.place p).2 := by
  have hw : 0 < rg.sw := Nat.pos_of_mul_pos_right (Nat.zero_lt_of_lt h)
  have hmod := Nat.mod_lt p hw
  have hdiv : p / rg.sw < rg.sh := Nat.div_lt_of_lt_mul h
  exact ⟨Nat.le_add_right _ _, Nat.add_lt_add_left hmod _, Nat.le_add_right _ _, Nat.add_lt_add_left hdiv _⟩

theorem Region.exists_place {rg : Region} {x y : Nat} (h : rg.Contains x y) :
    ∃ p, p < rg.sw * rg.sh ∧ rg.place p = (x, y) := by
  obtain ⟨hx, hx', hy, hy'⟩ := h
  have hdx : x - rg.sx < rg.sw := by omega
  have hdy : y - rg.sy < rg.sh := by omega
  refine ⟨rg.sw * (y - rg.sy) + (x - rg.sx), by nlinarith, ?_⟩
  rw [Region.place, Nat.mul_add_mod, Nat.mod_eq_of_lt hdx, Nat.mul_add_div (by omega), Nat.div_eq_of_lt hdx]
  exact Prod.ext (by simp only; omega) (by simp only; omega)

theorem Region.place_injective (rg : Region) : Function.Injective rg.place := by
  intro p q h
  simp only [Region.place, Prod.mk.injEq, Nat.add_left_cancel_iff] at h
  rw [← Nat.div_add_mod p rg.sw, ← Nat.div_add_mod q rg.sw, h.1, h.2]

theorem Region.coords_nodup (rg : Region) : rg.coords.Nodup :=
  rg.coords_eq ▸ List.nodup_range.map rg.place_injective

theorem Region.contains_of_mem_sites {rg : Region} {img : Image} {site : Site} (h : site ∈ rg.sites img) :
    rg.Contains site.x site.y := by
  obtain ⟨c, hc, hsite⟩ := List.mem_filterMap.1 h
  rw [rg.coords_eq, List.mem_map] at hc
  obtain ⟨p, hp, rfl⟩ := hc
  obtain ⟨px, -, rfl⟩ := Option.map_eq_some_iff.1 hsite
  exact Region.contains_place (List.mem_range.1 hp)

/-- Two sites stand at different points. -/
def Site.Apart (a b : Site) : Prop := ¬(a.x = b.x ∧ a.y = b.y)

theorem Region.sites_apart (rg : Region) (img : Image) : (rg.sites img).Pairwise Site.Apart := by
  refine List.pairwise_filterMap.2 (rg.coords_nodup.imp fun {c c'} hne a ha b hb hab => hne ?_)
  obtain ⟨px, -, rfl⟩ := Option.map_eq_some_iff.1 ha
  obtain ⟨px', -, rfl⟩ := Option.map_eq_some_iff.1 hb
  exact Prod.ext hab.1 hab.2

theorem clampRegion_pixel {img : Image} {sel : Rect} (hf : img.Full) {x y : Nat}
    (h : (clampRegion img sel).Contains x y) : ∃ px, img.at x y = some px :=
  Image.exists_at hf (clampRegion_inside h).1 (clampRegion_inside h).2

/-- In a full image every point of the clamped region has its site. -/
theorem clampRegion_sites {img : Image} (sel : Rect) (hf : img.Full) :
    ((clampRegion img sel).sites img).map some =
      (List.range ((clampRegion img sel).sw * (clampRegion img sel).sh)).map fun p =>
        (img.at ((clampRegion img sel).place p).1 ((clampRegion img sel).place p).2).map fun px =>
          ⟨((clampRegion img sel).place p).1, ((clampRegion img sel).place p).2, px⟩ := by
  rw [Region.sites, map_some_filterMap, Region.coords_eq, List.map_map]
  · rfl
  · intro c hc
    rw [Region.coords_eq, List.mem_map] at hc
    obtain ⟨p, hp, rfl⟩ := hc
    obtain ⟨px, hpx⟩ := clampRegion_pixel hf (Region.contains_place (List.mem_range.1 hp))
    exact ⟨⟨_, _, px⟩, by rw [hpx]; rfl⟩

theorem clampRegion_sites_length {img : Image} (sel : Rect) (hf : img.Full) :
    ((clampRegion img sel).sites img).length = (clampRegion img sel).sw * (clampRegion img sel).sh := by
  simpa using congrArg List.length (clampRegion_sites sel hf)

theorem clampRegion_sites_getElem? {img : Image} (sel : Rect) (hf : img.Full) {p : Nat}
    (hp : p < (clampRegion img sel).sw * (clampRegion img sel).sh) :
    ∃ px, img.at ((clampRegion img sel).place p).1 ((clampRegion img sel).place p).2 = some px ∧
      ((clampRegion img sel).sites img)[p]? =
        some ⟨((clampRegion img sel).place p).1, ((clampRegion img sel).place p).2, px⟩ := by
  obtain ⟨px, hpx⟩ := clampRegion_pixel hf (Region.contains_place hp)
  have hget := congrArg (fun l => l[p]?) (clampRegion_sites sel hf)
  refine ⟨px, hpx, ?_⟩
  simpa [hp, hpx] using hget

end Sys2Proof.Machine
end

section
/-! What `runOnRegion` does to the draws, the records, the counters and the two buffers, for each pixel (R118 to R126)
and so for all of them (R132 to R135). -/

namespace Sys2Proof.Machine

/-! ## One pixel -/

/-- The two records of a pixel, with the next two draws of the source (R118). -/
def siteRecords (luma : LumaParams) (src : DrawSource) (site : Site) : List CodewordRecord :=
  [nibbleRecord site .high (siteNibble luma site .high) (src.at src.taken),
    nibbleRecord site .low (siteNibble luma site .low) (src.at (src.taken + 1))]

/-- The source after so many draws. -/
def DrawSource.skip (src : DrawSource) (n : Nat) : DrawSource := { src with taken := src.taken + n }

@[simp] theorem DrawSource.skip_taken (src : DrawSource) (n : Nat) : (src.skip n).taken = src.taken + n := rfl

@[simp] theorem DrawSource.skip_at (src : DrawSource) (n k : Nat) : (src.skip n).at k = src.at k := rfl

@[simp] theorem DrawSource.skip_skip (src : DrawSource) (m n : Nat) : (src.skip m).skip n = src.skip (m + n) := by
  simp only [DrawSource.skip, Nat.add_assoc]

theorem pixelStep_source (luma : LumaParams) (acc : RunAcc) (site : Site) :
    (pixelStep luma acc site).2 = acc.2.skip 2 := rfl

theorem pixelStep_records (luma : LumaParams) (acc : RunAcc) (site : Site) :
    (pixelStep luma acc site).1.records = acc.1.records ++ siteRecords luma acc.2 site := by
  rw [pixelStep, ResultSet.writePixel_records, ResultSet.addRecord_records, ResultSet.addRecord_records,
    List.append_assoc]
  rfl

theorem nibbleRecord_faithful (site : Site) (sel : Selector) (d : DataWord) (i : Fin 7) :
    (nibbleRecord site sel d i).Faithful := ⟨rfl, rfl, rfl⟩

theorem pixelStep_coherent (luma : LumaParams) {acc : RunAcc} (site : Site) (h : acc.1.Coherent) :
    (pixelStep luma acc site).1.Coherent :=
  ((h.addRecord (nibbleRecord_faithful ..)).addRecord (nibbleRecord_faithful ..)).writePixel ..

/-- The channel's flip, seen at the data positions (R135). -/
theorem nib_dataBits_flip (d : DataWord) (i : Fin 7) :
    ((encodeWord d).flip i).dataBits.nib = d.nib ^^^ corruptionMask i := by
  rcases d with ⟨_ | _, _ | _, _ | _, _ | _⟩ <;> revert i <;> decide

theorem nib_siteNibble (luma : LumaParams) (site : Site) (sel : Selector) :
    (siteNibble luma site sel).nib = nibbleOf (lumaGray luma site.pixel) sel :=
  DataWord.nib_ofNibble _ (nibbleOf_lt _ _)

/-- The gray value that the received words of a pixel show, with draws `k` and `k + 1` of a source (R124, R135). -/
def corruptedGray (luma : LumaParams) (src : DrawSource) (k : Nat) (px : Pixel) : Nat :=
  16 * (nibbleOf (lumaGray luma px) .high ^^^ corruptionMask (src.at k)) +
    (nibbleOf (lumaGray luma px) .low ^^^ corruptionMask (src.at (k + 1)))

/-- DECODE corrects both nibbles of a pixel, so the corrected output shows the low 8 bits of its luma. -/
theorem pixelStep_corrected (luma : LumaParams) (acc : RunAcc) (site : Site) :
    (pixelStep luma acc site).1.correctedPixels =
      acc.1.correctedPixels.write site.x site.y (.flat (lumaGray luma site.pixel % 256)) := by
  rw [← reassemble_ofNibble]
  simp [pixelStep, ResultSet.writePixel, nibbleRecord, decodeWord_flip_encodeWord, siteNibble]

theorem pixelStep_corrupted (luma : LumaParams) (acc : RunAcc) (site : Site) :
    (pixelStep luma acc site).1.corruptedPixels =
      acc.1.corruptedPixels.write site.x site.y (.flat (corruptedGray luma acc.2 acc.2.taken site.pixel)) := by
  rw [corruptedGray, ← nib_siteNibble, ← nib_siteNibble, ← nib_dataBits_flip, ← nib_dataBits_flip]
  rfl

/-! ## All pixels of a list -/

@[simp] theorem runSites_nil (luma : LumaParams) (acc : RunAcc) : runSites luma acc [] = acc := rfl

@[simp] theorem runSites_cons (luma : LumaParams) (acc : RunAcc) (site : Site) (rest : List Site) :
    runSites luma acc (site :: rest) = runSites luma (pixelStep luma acc site) rest := rfl

/-- The records of a list of pixels, each with the next two draws of the source. -/
def runRecords (luma : LumaParams) : DrawSource → List Site → List CodewordRecord
  | _, [] => []
  | src, site :: rest => siteRecords luma src site ++ runRecords luma (src.skip 2) rest

theorem runSites_source (luma : LumaParams) (acc : RunAcc) (sites : List Site) :
    (runSites luma acc sites).2 = acc.2.skip (2 * sites.length) := by
  induction sites generalizing acc with
  | nil => rfl
  | cons site rest ih =>
    rw [runSites_cons, ih, pixelStep_source, DrawSource.skip_skip, List.length_cons, Nat.mul_succ, Nat.add_comm]

theorem runSites_records (luma : LumaParams) (acc : RunAcc) (sites : List Site) :
    (runSites luma acc sites).1.records = acc.1.records ++ runRecords luma acc.2 sites := by
  induction sites generalizing acc with
  | nil => simp [runRecords]
  | cons site rest ih => rw [runSites_cons, ih, pixelStep_records, pixelStep_source, List.append_assoc, runRecords]

theorem runSites_coherent (luma : LumaParams) {acc : RunAcc} (sites : List Site) (h : acc.1.Coherent) :
    (runSites luma acc sites).1.Coherent := by
  induction sites generalizing acc with
  | nil => exact h
  | cons site rest ih => exact ih (pixelStep_coherent luma site h)

@[simp] theorem runRecords_length (luma : LumaParams) (src : DrawSource) (sites : List Site) :
    (runRecords luma src sites).length = 2 * sites.length := by
  induction sites generalizing src with
  | nil => rfl
  | cons site rest ih =>
    rw [runRecords, List.length_append, ih, List.length_cons, Nat.mul_succ, Nat.add_comm]
    rfl

/-- Pixel p has records 2p and 2p + 1, with draws 2p and 2p + 1. -/
theorem runRecords_getElem? (luma : LumaParams) (src : DrawSource) {sites : List Site} {p : Nat} {site : Site}
    (h : sites[p]? = some site) :
    (runRecords luma src sites)[2 * p]? =
      some (nibbleRecord site .high (siteNibble luma site .high) (src.at (src.taken + 2 * p))) ∧
    (runRecords luma src sites)[2 * p + 1]? =
      some (nibbleRecord site .low (siteNibble luma site .low) (src.at (src.taken + 2 * p + 1))) := by
  induction sites generalizing src p with
  | nil => cases h
  | cons first rest ih =>
    cases p with
    | zero =>
      cases h
      exact ⟨rfl, rfl⟩
    | succ p =>
      have hrest := ih (src.skip 2) h
      rw [DrawSource.skip_taken, DrawSource.skip_at, DrawSource.skip_at,
        show src.taken + 2 + 2 * p = src.taken + 2 * (p + 1) by ring] at hrest
      exact hrest

/-! ## The two buffers -/

theorem pixelStep_size (luma : LumaParams) (acc : RunAcc) (site : Site) :
    (pixelStep luma acc site).1.correctedPixels.width = acc.1.correctedPixels.width ∧
    (pixelStep luma acc site).1.correctedPixels.height = acc.1.correctedPixels.height ∧
    (pixelStep luma acc site).1.corruptedPixels.width = acc.1.corruptedPixels.width ∧
    (pixelStep luma acc site).1.corruptedPixels.height = acc.1.corruptedPixels.height := by
  simp [pixelStep_corrected, pixelStep_corrupted]

theorem runSites_size (luma : LumaParams) (acc : RunAcc) (sites : List Site) :
    (runSites luma acc sites).1.correctedPixels.width = acc.1.correctedPixels.width ∧
    (runSites luma acc sites).1.correctedPixels.height = acc.1.correctedPixels.height ∧
    (runSites luma acc sites).1.corruptedPixels.width = acc.1.corruptedPixels.width ∧
    (runSites luma acc sites).1.corruptedPixels.height = acc.1.corruptedPixels.height := by
  induction sites generalizing acc with
  | nil => exact ⟨rfl, rfl, rfl, rfl⟩
  | cons site rest ih =>
    obtain ⟨hw, hh, hw', hh'⟩ := ih (pixelStep luma acc site)
    obtain ⟨sw, sh, sw', sh'⟩ := pixelStep_size luma acc site
    exact ⟨hw.trans sw, hh.trans sh, hw'.trans sw', hh'.trans sh'⟩

/-- A point where no site stands keeps its pixels. -/
theorem runSites_at_other (luma : LumaParams) (acc : RunAcc) {sites : List Site} {x y : Nat}
    (h : ∀ site ∈ sites, ¬(x = site.x ∧ y = site.y)) :
    (runSites luma acc sites).1.correctedPixels.at x y = acc.1.correctedPixels.at x y ∧
    (runSites luma acc sites).1.corruptedPixels.at x y = acc.1.corruptedPixels.at x y := by
  induction sites generalizing acc with
  | nil => exact ⟨rfl, rfl⟩
  | cons site rest ih =>
    rw [List.forall_mem_cons] at h
    obtain ⟨hsite, hrest⟩ := h
    obtain ⟨hcor, hcpt⟩ := ih (pixelStep luma acc site) hrest
    rw [pixelStep_corrected, Image.at_write_other _ _ hsite] at hcor
    rw [pixelStep_corrupted, Image.at_write_other _ _ hsite] at hcpt
    exact ⟨hcor, hcpt⟩

/-- A point where one site stands gets the pixels of that site, with that site's draws: the sites before it and after
it stand elsewhere. -/
theorem runSites_at_site (luma : LumaParams) {acc : RunAcc} {sites : List Site} {p : Nat} {site : Site}
    (hp : sites[p]? = some site) (hapart : sites.Pairwise Site.Apart) (hcoh : acc.1.Coherent)
    (hx : site.x < acc.1.correctedPixels.width) (hy : site.y < acc.1.correctedPixels.height) :
    (runSites luma acc sites).1.correctedPixels.at site.x site.y =
      some (.flat (lumaGray luma site.pixel % 256)) ∧
    (runSites luma acc sites).1.corruptedPixels.at site.x site.y =
      some (.flat (corruptedGray luma acc.2 (acc.2.taken + 2 * p) site.pixel)) := by
  induction sites generalizing acc p with
  | nil => cases hp
  | cons first rest ih =>
    obtain ⟨hfirst, hrest⟩ := List.pairwise_cons.1 hapart
    cases p with
    | zero =>
      cases hp
      obtain ⟨hcor, hcpt⟩ := runSites_at_other luma (pixelStep luma acc site) fun s hs => hfirst s hs
      rw [runSites_cons, hcor, hcpt, pixelStep_corrected, pixelStep_corrupted]
      exact ⟨Image.at_write_same _ hcoh.corrected_full _ hx hy,
        Image.at_write_same _ hcoh.corrupted_full _ (hcoh.same_width ▸ hx) (hcoh.same_height ▸ hy)⟩
    | succ p =>
      obtain ⟨hw, hh, -, -⟩ := pixelStep_size luma acc first
      have hnext := ih (acc := pixelStep luma acc first) hp hrest (pixelStep_coherent luma first hcoh)
        (hw ▸ hx) (hh ▸ hy)
      rw [pixelStep_source, DrawSource.skip_taken,
        show acc.2.taken + 2 + 2 * p = acc.2.taken + 2 * (p + 1) by ring] at hnext
      exact hnext

/-! ## `runOnRegion` -/

theorem runOnRegion_of_not_degenerate (luma : LumaParams) {img : Image} {sel : Rect} (src : DrawSource)
    (hd : (clampRegion img sel).degenerate = false) :
    runOnRegion luma img sel src = .ok (runSites luma (.fresh img, src) ((clampRegion img sel).sites img)).1 := by
  simp [runOnRegion, hd]

/-- An `Ok` outcome comes of a region with a pixel, and holds the result set of its sites. -/
theorem runOnRegion_ok {luma : LumaParams} {img : Image} {sel : Rect} {src : DrawSource} {rs : ResultSet}
    (h : runOnRegion luma img sel src = .ok rs) :
    (clampRegion img sel).degenerate = false ∧
      rs = (runSites luma (.fresh img, src) ((clampRegion img sel).sites img)).1 := by
  cases hd : (clampRegion img sel).degenerate with
  | false =>
    rw [runOnRegion_of_not_degenerate luma src hd] at h
    cases h
    exact ⟨rfl, rfl⟩
  | true => simp [runOnRegion, hd] at h

theorem runOnRegion_records {luma : LumaParams} {img : Image} {sel : Rect} {src : DrawSource} {rs : ResultSet}
    (h : runOnRegion luma img sel src = .ok rs) :
    rs.records = runRecords luma src ((clampRegion img sel).sites img) := by
  obtain ⟨-, rfl⟩ := runOnRegion_ok h
  exact runSites_records luma (.fresh img, src) _

theorem runOnRegion_records_length {luma : LumaParams} {img : Image} {sel : Rect} {src : DrawSource} {rs : ResultSet}
    (hf : img.Full) (h : runOnRegion luma img sel src = .ok rs) :
    rs.records.length = 2 * (clampRegion img sel).sw * (clampRegion img sel).sh := by
  rw [runOnRegion_records h, runRecords_length, clampRegion_sites_length sel hf, mul_assoc]

/-- Settles O29: the records are those of the sites, in the order of the sites. -/
theorem recordsFollowRowMajorOrder : Obligations.RecordsFollowRowMajorOrder := by
  intro luma img sel src rs hf h
  refine ⟨runOnRegion_records_length hf h, rfl, fun p hp => ?_⟩
  obtain ⟨px, hpx, hsite⟩ := clampRegion_sites_getElem? sel hf hp
  obtain ⟨hhigh, hlow⟩ := runRecords_getElem? luma src hsite
  rw [← runOnRegion_records h] at hhigh hlow
  exact ⟨px, _, _, hpx, hhigh, hlow, ⟨rfl, rfl, rfl, rfl⟩, rfl, rfl, rfl, rfl, rfl, rfl, nibbleRecord_faithful ..,
    nibbleRecord_faithful ..⟩

/-- Settles O30. -/
theorem runTakesTwoDrawsForEachPixel : Obligations.RunTakesTwoDrawsForEachPixel := by
  intro luma img sel src hf
  rw [runSites_source, clampRegion_sites_length sel hf]
  rfl

/-- Settles O31: the result set stays coherent, so each counter is the number of records. -/
theorem statisticsCountEveryCodeword : Obligations.StatisticsCountEveryCodeword := by
  intro luma img sel src rs hf h
  have hlen := runOnRegion_records_length hf h
  obtain ⟨-, rfl⟩ := runOnRegion_ok h
  have hcoh := runSites_coherent luma (acc := (.fresh img, src)) ((clampRegion img sel).sites img)
    (ResultSet.fresh_coherent hf)
  rw [hcoh.counters]
  exact ⟨hlen, rfl, rfl, rfl⟩

/-- What a run over a full image shows at place p of its region. -/
theorem runOnRegion_at_place {luma : LumaParams} {img : Image} {sel : Rect} {src : DrawSource} {rs : ResultSet}
    (hf : img.Full) (h : runOnRegion luma img sel src = .ok rs) {p : Nat}
    (hp : p < (clampRegion img sel).sw * (clampRegion img sel).sh) :
    ∃ px, img.at ((clampRegion img sel).place p).1 ((clampRegion img sel).place p).2 = some px ∧
      rs.correctedPixels.at ((clampRegion img sel).place p).1 ((clampRegion img sel).place p).2 =
        some (.flat (lumaGray luma px % 256)) ∧
      rs.corruptedPixels.at ((clampRegion img sel).place p).1 ((clampRegion img sel).place p).2 =
        some (.flat (corruptedGray luma src (src.taken + 2 * p) px)) := by
  obtain ⟨-, rfl⟩ := runOnRegion_ok h
  obtain ⟨px, hpx, hsite⟩ := clampRegion_sites_getElem? sel hf hp
  obtain ⟨hx, hy⟩ := Image.at_some_lt hpx
  exact ⟨px, hpx, runSites_at_site luma (acc := (.fresh img, src)) hsite (Region.sites_apart _ _)
    (ResultSet.fresh_coherent hf) hx hy⟩

/-- Settles O32: with the default weights the luma is below 256. -/
theorem correctedOutputIsTheLuma : Obligations.CorrectedOutputIsTheLuma := by
  intro arith img sel src rs hf h x y hin
  obtain ⟨p, hp, hplace⟩ := Region.exists_place hin
  obtain ⟨px, hpx, hcor, -⟩ := runOnRegion_at_place hf h hp
  rw [hplace] at hpx hcor
  rw [Nat.mod_eq_of_lt (Nat.lt_succ_of_le (lumaGray_le_255 arith px))] at hcor
  exact ⟨px, hpx, hcor⟩

/-- Settles O33. -/
theorem corruptedOutputShowsTheFlippedDataBits : Obligations.CorruptedOutputShowsTheFlippedDataBits := by
  intro luma img sel src rs hf h p hp
  obtain ⟨px, hpx, -, hcpt⟩ := runOnRegion_at_place hf h hp
  exact ⟨px, hpx, hcpt⟩

/-- Settles O34: no site stands outside the region. -/
theorem pixelsOutsideTheRegionStayAsTheyWere : Obligations.PixelsOutsideTheRegionStayAsTheyWere := by
  intro luma img sel src rs h
  obtain ⟨-, rfl⟩ := runOnRegion_ok h
  obtain ⟨hw, hh, hw', hh'⟩ := runSites_size luma (.fresh img, src) ((clampRegion img sel).sites img)
  refine ⟨hw, hh, hw', hh', fun x y hout => runSites_at_other luma (.fresh img, src) ?_⟩
  rintro site hsite ⟨rfl, rfl⟩
  exact hout (Region.contains_of_mem_sites hsite)

end Sys2Proof.Machine
end

section
/-! A run on the machine (R118, R131, R132, R178): ten steps for each pixel lead from one pixel's start to the next, with
the records, the draws and the buffers of `pixelStep` and the requests of its two records. -/

namespace Sys2Proof.Machine

/-- The requests that the block answers for a record: its ENCODE and its DECODE. -/
def CodewordRecord.requests (e : CodewordRecord) : List Cmd := [encodeRequest e.dataWord, decodeRequest e.receivedWord]

/-! ## Between two nibbles -/

/-- The machine with this run in progress and both of the host's buses empty. -/
def State.inRun (s : State) (r : RunState) : State :=
  { s with cmd := none, rsp := none, host := { s.host with run := some r } }

@[simp] theorem State.inRun_inRun (s : State) (r r' : RunState) : (s.inRun r).inRun r' = s.inRun r' := rfl

/-- The record that a run makes of the nibble it stands before, with its next draw. -/
def RunState.nextRecord (r : RunState) (site : Site) : CodewordRecord :=
  nibbleRecord site r.half.selector (r.dataWord site) (r.source.at r.source.taken)

/-- The run after a high nibble: its record is there, and the low nibble carries its received word and its result. -/
def RunState.afterHigh (r : RunState) (site : Site) : RunState :=
  { r with
    source := r.source.skip 1
    half := .low (r.nextRecord site).receivedWord (r.nextRecord site).decodeResult
    phase := .present
    results := r.results.addRecord (r.nextRecord site) }

/-- The run before a pixel, with a result set and a source that it has come to. -/
def RunState.atPixel (r : RunState) (acc : RunAcc) (todo : List Site) : RunState :=
  { r with source := acc.2, todo := todo, half := .high, phase := .present, results := acc.1 }

theorem afterNibble_of_high (s : State) {r : RunState} (hh : r.half = .high) (site : Site) (rest : List Site) :
    afterNibble s r site rest = s.inRun (r.afterHigh site) := by
  obtain ⟨luma, src, todo, half, phase, results⟩ := r
  cases hh
  rfl

/-- After a low nibble its record is there, both buffers hold the pixel, and the next pixel follows. -/
theorem afterNibble_of_low (s : State) {r : RunState} {rwHigh : Word7} {drHigh : DecodeResult}
    (hh : r.half = .low rwHigh drHigh) (site : Site) (rest : List Site) :
    afterNibble s r site rest = s.inRun (r.atPixel
      ((r.results.addRecord (r.nextRecord site)).writePixel site.x site.y rwHigh drHigh
        (r.nextRecord site).receivedWord (r.nextRecord site).decodeResult, r.source.skip 1) rest) := by
  obtain ⟨luma, src, todo, half, phase, results⟩ := r
  cases hh
  rfl

theorem run_nextRecord {s : State} {r : RunState} {site : Site} {rest : List Site} (hc : s.cmd = none)
    (ho : s.others = []) (hr : s.host.run = some r) (ht : r.todo = site :: rest) (hp : r.phase = .present) (k : Nat) :
    core.run (k + 5) s = core.run k (afterNibble s r site rest) ∧
    requestTrace s (k + 5) = (r.nextRecord site).requests ++ requestTrace (afterNibble s r site rest) k :=
  run_nibble hc ho hr ht hp k

/-! ## From pixel to pixel -/

/-- A run stands before the first of these pixels, and nobody has a request. -/
structure AtPixel (s : State) (r : RunState) (todo : List Site) : Prop where
  no_request : s.cmd = none
  no_others : s.others = []
  run : s.host.run = some r
  todo : r.todo = todo
  half : r.half = .high
  phase : r.phase = .present

theorem atPixel_inRun {s : State} (ho : s.others = []) (r : RunState) (acc : RunAcc) (todo : List Site) :
    AtPixel (s.inRun (r.atPixel acc todo)) (r.atPixel acc todo) todo :=
  ⟨rfl, ho, rfl, rfl, rfl, rfl⟩

/-- A pixel takes ten steps: five for its high nibble, five for its low. -/
theorem run_pixel {s : State} {r : RunState} {site : Site} {rest : List Site} (h : AtPixel s r (site :: rest))
    (k : Nat) :
    core.run (k + 10) s = core.run k (s.inRun (r.atPixel (pixelStep r.luma (r.results, r.source) site) rest)) ∧
    requestTrace s (k + 10) = (siteRecords r.luma r.source site).flatMap CodewordRecord.requests ++
      requestTrace (s.inRun (r.atPixel (pixelStep r.luma (r.results, r.source) site) rest)) k := by
  obtain ⟨hc, ho, hr, ht, hh, hp⟩ := h
  have hlowHalf : (r.afterHigh site).half =
      .low (r.nextRecord site).receivedWord (r.nextRecord site).decodeResult := rfl
  obtain ⟨hhigh, hhighTrace⟩ := run_nextRecord hc ho hr ht hp (k + 5)
  rw [afterNibble_of_high s hh] at hhigh hhighTrace
  obtain ⟨hlow, hlowTrace⟩ :=
    run_nextRecord (s := s.inRun (r.afterHigh site)) (r := r.afterHigh site) rfl ho rfl ht rfl k
  rw [afterNibble_of_low _ hlowHalf, State.inRun_inRun] at hlow hlowTrace
  rw [hhigh, hhighTrace, hlow, hlowTrace]
  have hsel : r.half.selector = .high := by rw [hh, Half.selector]
  have hfirst : r.nextRecord site =
      nibbleRecord site .high (siteNibble r.luma site .high) (r.source.at r.source.taken) := by
    rw [RunState.nextRecord, RunState.dataWord, hsel]
  rw [RunState.afterHigh, hfirst]
  exact ⟨rfl, rfl⟩

/-- A list of pixels is run through from the first to the end of the last. -/
theorem run_pixels {s : State} {r : RunState} {site : Site} {rest : List Site} (h : AtPixel s r (site :: rest))
    (k : Nat) :
    core.run (k + 10 * (rest.length + 1)) s =
      core.run k (s.inRun (r.atPixel (runSites r.luma (r.results, r.source) (site :: rest)) [])) ∧
    requestTrace s (k + 10 * (rest.length + 1)) =
      (runRecords r.luma r.source (site :: rest)).flatMap CodewordRecord.requests ++
        requestTrace (s.inRun (r.atPixel (runSites r.luma (r.results, r.source) (site :: rest)) [])) k := by
  induction rest generalizing s r site with
  | nil =>
    obtain ⟨hrun, htrace⟩ := run_pixel h k
    simpa [runRecords] using ⟨hrun, htrace⟩
  | cons next rest ih =>
    obtain ⟨hrun, htrace⟩ := run_pixel h (k + 10 * (rest.length + 1))
    obtain ⟨hrun', htrace'⟩ :=
      ih (atPixel_inRun h.no_others r (pixelStep r.luma (r.results, r.source) site) (next :: rest))
    rw [List.length_cons, Nat.mul_succ, ← Nat.add_assoc, hrun, htrace, hrun', htrace', runRecords, List.flatMap_append,
      List.append_assoc]
    exact ⟨rfl, rfl⟩

/-! ## The whole run -/

/-- A run with no pixel left ends. -/
theorem step_runEnd {s : State} {r : RunState} (h : AtPixel s r []) :
    step s = .next (s.endRun (.ok r.results)) := by
  obtain ⟨hc, ho, hr, ht, -, -⟩ := h
  simp only [step_host hc ho, hostStep, hr, runStep, ht]

/-- A run goes through its pixels, at least one, and ends with its result set. -/
theorem run_toEnd {s : State} {r : RunState} {sites : List Site} (h : AtPixel s r sites) (hne : sites ≠ []) :
    core.run (10 * sites.length + 1) s =
      .next ((s.inRun r).endRun (.ok (runSites r.luma (r.results, r.source) sites).1)) ∧
    requestTrace s (10 * sites.length + 1) = (runRecords r.luma r.source sites).flatMap CodewordRecord.requests := by
  obtain ⟨site, rest, rfl⟩ := List.exists_cons_of_ne_nil hne
  obtain ⟨hrun, htrace⟩ := run_pixels h 1
  have hend := step_runEnd (atPixel_inRun h.no_others r (runSites r.luma (r.results, r.source) (site :: rest)) [])
  rw [List.length_cons, Nat.add_comm _ 1, hrun, htrace]
  constructor
  · exact core_run_succ hend 0
  · rw [requestTrace_succ hend]
    exact List.append_nil _

theorem atPixel_initial {s : State} (hi : s.Idle) (luma : LumaParams) (img : Image) (sel : Rect) (src : DrawSource) :
    AtPixel (s.takeInputs.withRun (.initial luma img sel src)) (.initial luma img sel src)
      ((clampRegion img sel).sites img) :=
  ⟨hi.no_request, hi.no_others, rfl, rfl, rfl, rfl⟩

theorem clampRegion_sites_ne_nil {img : Image} {sel : Rect} (hf : img.Full)
    (hd : (clampRegion img sel).degenerate = false) : (clampRegion img sel).sites img ≠ [] := by
  intro hnil
  have hlen := clampRegion_sites_length sel hf
  rw [hnil, List.length_nil, eq_comm, Nat.mul_eq_zero, ← Region.degenerate_iff, hd] at hlen
  cases hlen

/-- A ready host's run, from its start to its end: the outcome is that of `runOnRegion`, and the requests are those of
its records. -/
theorem run_ready {s : State} {img : Image} {sel : Rect} {src : DrawSource} (h : s.ReadyToRun img sel src)
    (hf : img.Full) (hd : (clampRegion img sel).degenerate = false) :
    core.run (runSteps ((clampRegion img sel).sw * (clampRegion img sel).sh)) s = .next { s with
        cmd := none, rsp := none,
        host := { s.host with
          image := none, selection := none, source := none,
          outcome := some (runOnRegion s.host.luma img sel src) } } ∧
    requestTrace s (runSteps ((clampRegion img sel).sw * (clampRegion img sel).sh)) =
      (runRecords s.host.luma src ((clampRegion img sel).sites img)).flatMap CodewordRecord.requests := by
  have hstart := step_ready h hd
  obtain ⟨hrun, htrace⟩ :=
    run_toEnd (atPixel_initial h.idle s.host.luma img sel src) (clampRegion_sites_ne_nil hf hd)
  rw [runOnRegion_of_not_degenerate _ _ hd, runSteps, ← clampRegion_sites_length sel hf]
  constructor
  · rw [core_run_succ hstart, hrun]
    simp only [h.idle.no_run]
    rfl
  · rw [requestTrace_succ hstart, htrace, h.idle.no_request]
    rfl

/-- Settles O35. -/
theorem machineRunIsRunOnRegion : Obligations.MachineRunIsRunOnRegion :=
  fun _ _ _ _ h hf hd => (run_ready h hf hd).1

/-- Settles O36: the requests are two for each record. -/
theorem runMakesFourRequestsForEachPixel : Obligations.RunMakesFourRequestsForEachPixel := by
  intro s img sel src rs h hf hok
  obtain ⟨hd, -⟩ := runOnRegion_ok hok
  have htrace := (run_ready h hf hd).2
  rw [← runOnRegion_records hok] at htrace
  refine ⟨htrace, ?_⟩
  have hrequests : ∀ e : CodewordRecord, e.requests.length = 2 := fun _ => rfl
  rw [htrace, List.length_flatMap, List.map_congr_left fun e _ => hrequests e, List.map_const', List.sum_replicate,
    runOnRegion_records_length hf hok, smul_eq_mul]
  ring

/-! ## Equal inputs -/

/-- Only the draws that a pixel list takes count for its result set. -/
theorem runSites_congr (luma : LumaParams) (rs : ResultSet) {src src' : DrawSource} {sites : List Site}
    (h : ∀ j, j < 2 * sites.length → src.at (src.taken + j) = src'.at (src'.taken + j)) :
    (runSites luma (rs, src) sites).1 = (runSites luma (rs, src') sites).1 := by
  induction sites generalizing rs src src' with
  | nil => rfl
  | cons site rest ih =>
    rw [List.length_cons] at h
    have hstep : (pixelStep luma (rs, src) site).1 = (pixelStep luma (rs, src') site).1 := by
      have h0 : src.draw.1 = src'.draw.1 := h 0 (by omega)
      have h1 : src.draw.2.draw.1 = src'.draw.2.draw.1 := h 1 (by omega)
      simp only [pixelStep, h0, h1]
    rw [runSites_cons, runSites_cons, ← Prod.eta (pixelStep luma (rs, src) site),
      ← Prod.eta (pixelStep luma (rs, src') site), hstep]
    refine ih _ fun j hj => ?_
    have hnext := h (2 + j) (by omega)
    rw [← Nat.add_assoc, ← Nat.add_assoc] at hnext
    exact hnext

/-- Settles O37: the outcomes on the machine are those of `runOnRegion`, which reads no other draws. -/
theorem runsWithEqualInputsGiveEqualResults : Obligations.RunsWithEqualInputsGiveEqualResults := by
  intro s s' img sel src src' h h' hluma hf hdraws
  refine ⟨fun hd => ?_, fun hd => ?_⟩
  · rw [← clampRegion_sites_length sel hf] at hdraws
    have heq := runSites_congr s.host.luma (.fresh img) hdraws
    have hout := runOnRegion_of_not_degenerate s.host.luma src hd
    have hout' := runOnRegion_of_not_degenerate s'.host.luma src' hd
    rw [← hluma, ← heq] at hout'
    exact ⟨_, _, _, (run_ready h hf hd).1, (run_ready h' hf hd).1, congrArg some hout,
      congrArg some (hluma ▸ hout')⟩
  · exact ⟨_, _, _, step_ready_degenerate h hd, step_ready_degenerate h' hd, rfl, rfl⟩

end Sys2Proof.Machine
end

section
/-! Host programs (R137): what each statement does where its operands are there and of their kinds, a program on the
machine, and a program whose operands are checked. -/

namespace Sys2Proof.Machine

/-! ## What a statement does -/

theorem action_request {line : AsmLine} {c : Cmd} (h : assemble line = some c) (vars : Vars)
    (src : Option DrawSource) (v : Var) : (Stmt.request v line).action vars src = .request v c := by
  simp only [Stmt.action, h]

theorem action_request_outOfRange {line : AsmLine} (h : line.inRange = false) (vars : Vars)
    (src : Option DrawSource) (v : Var) : (Stmt.request v line).action vars src = .refuse .syntaxError := by
  simp only [Stmt.action, (assemble_eq_none_iff line).2 h]

theorem action_encodeOf {vars : Vars} {e : Expr} {d : DataWord} (h : e.eval vars = some (.dataWord d))
    (src : Option DrawSource) (v : Var) : (Stmt.encodeOf v e).action vars src = .request v (encodeRequest d) := by
  simp only [Stmt.action, h]

theorem action_decodeOf {vars : Vars} {e : Expr} {w : Word7} (h : e.eval vars = some (.word w))
    (src : Option DrawSource) (v : Var) : (Stmt.decodeOf v e).action vars src = .request v (decodeRequest w) := by
  simp only [Stmt.action, h]

theorem action_encodeOf_other {vars : Vars} {e : Expr} (h : ∀ d, e.eval vars ≠ some (.dataWord d))
    (src : Option DrawSource) (v : Var) :
    (Stmt.encodeOf v e).action vars src = .refuse .illFormedStatement := by
  rw [Stmt.action]
  split
  next d hd => exact absurd hd (h d)
  next => rfl

theorem action_decodeOf_other {vars : Vars} {e : Expr} (h : ∀ w, e.eval vars ≠ some (.word w))
    (src : Option DrawSource) (v : Var) :
    (Stmt.decodeOf v e).action vars src = .refuse .illFormedStatement := by
  rw [Stmt.action]
  split
  next w hw => exact absurd hw (h w)
  next => rfl

theorem action_flip {vars : Vars} {u : Expr} {x : IndexOperand} {w : Word7} {i : Fin 7}
    (hu : u.eval vars = some (.word w)) (hx : x.eval vars = .ok i) (src : Option DrawSource) (v : Var) :
    (Stmt.flip v u x).action vars src = .assign v (.word (w.flip i)) src := by
  simp only [Stmt.action, hu, hx]

theorem action_flip_badIndex {vars : Vars} {u : Expr} {x : IndexOperand} {w : Word7} {r : Refusal}
    (hu : u.eval vars = some (.word w)) (hx : x.eval vars = .error r) (src : Option DrawSource) (v : Var) :
    (Stmt.flip v u x).action vars src = .refuse r := by
  simp only [Stmt.action, hu, hx]

theorem action_flip_noWord {vars : Vars} {u : Expr} (h : ∀ w, u.eval vars ≠ some (.word w)) (x : IndexOperand)
    (src : Option DrawSource) (v : Var) :
    (Stmt.flip v u x).action vars src = .refuse .illFormedStatement := by
  simp only [Stmt.action]
  split
  next w _ hw _ => exact absurd hw (h w)
  next w _ hw _ => exact absurd hw (h w)
  next => rfl

theorem action_bind {vars : Vars} {e : Expr} {x : HostValue} (h : e.eval vars = some x) (src : Option DrawSource)
    (v : Var) : (Stmt.bind v e).action vars src = .assign v x src := by
  simp only [Stmt.action, h]

theorem action_bind_nothing {vars : Vars} {e : Expr} (h : e.eval vars = none) (src : Option DrawSource) (v : Var) :
    (Stmt.bind v e).action vars src = .refuse .illFormedStatement := by
  simp only [Stmt.action, h]

theorem eval_literal_lt (vars : Vars) {i : Nat} (h : i < 7) : (IndexOperand.literal i).eval vars = .ok ⟨i, h⟩ :=
  dif_pos h

theorem eval_literal_ge (vars : Vars) {i : Nat} (h : 7 ≤ i) :
    (IndexOperand.literal i).eval vars = .error .syntaxError :=
  dif_neg (Nat.not_lt.2 h)

theorem eval_read {vars : Vars} {e : Expr} {i : Fin 7} (h : e.eval vars = some (.index i)) :
    (IndexOperand.read e).eval vars = .ok i := by
  simp only [IndexOperand.eval, h]

theorem eval_read_other {vars : Vars} {e : Expr} (h : ∀ i, e.eval vars ≠ some (.index i)) :
    (IndexOperand.read e).eval vars = .error .illFormedStatement := by
  rw [IndexOperand.eval]
  split
  next i hi => exact absurd hi (h i)
  next => rfl

theorem eval_field {vars : Vars} {v : Var} {r : DecodeResult} (h : (Expr.var v).eval vars = some (.result r))
    (f : Field) : (Expr.field v f).eval vars = some (f.read r) := by
  have hlookup : vars.lookup v = some (.result r) := h
  simp only [Expr.eval, hlookup]

theorem eval_field_other {vars : Vars} {v : Var} (h : ∀ r, (Expr.var v).eval vars ≠ some (.result r)) (f : Field) :
    (Expr.field v f).eval vars = none := by
  simp only [Expr.eval]
  split
  next r hr => exact absurd hr (h r)
  next => rfl

/-! ## One statement on the machine -/

theorem getLsbD_one_shiftLeft : ∀ i k : Fin 7, (1#7 <<< (i : Nat)).getLsbD k = decide (k = i) := by
  decide

/-- A flip inverts bit i of the W bus, since bit i is index i. -/
theorem toBus_flip (w : Word7) (i : Fin 7) : (w.flip i).toBus = w.toBus ^^^ (1#7 <<< (i : Nat)) := by
  refine BitVec.eq_of_getLsbD_eq fun k hk => ?_
  have hbit : ∀ j : Fin 7, (w.flip i).toBus.getLsbD j = (w.toBus ^^^ (1#7 <<< (i : Nat))).getLsbD j := by
    intro j
    rw [BitVec.getLsbD_xor, Word7.getLsbD_toBus, Word7.getLsbD_toBus, Word7.get_flip, getLsbD_one_shiftLeft]
  exact hbit ⟨k, hk⟩

/-- Settles O38. -/
theorem flipIsAHostStepOnOneBusBit : Obligations.FlipIsAHostStepOnOneBusBit :=
  ⟨toBus_flip, fun _ _ _ _ _ _ _ hi hp hu hx => step_assign hi hp (action_flip hu hx _ _)⟩

/-- Settles O39. -/
theorem drawTakesTheNextIndex : Obligations.DrawTakesTheNextIndex := by
  refine ⟨fun s v rest src hi hp hsrc => ?_, fun src h => ?_, fun s v rest hi hp hsrc => ?_⟩
  · exact step_assign hi hp (by rw [hsrc]; rfl)
  · simp [DrawSource.at, h]
  · exact step_refuse hi hp (by rw [hsrc]; rfl)

theorem encodeRequest_eq (d : DataWord) : encodeRequest d = 0#4 ++ d.toBus := by
  rw [encodePort_request, DataWord.ofBus_toBus]

/-- Settles O40: the three forms are the three statements whose action is a request. -/
theorem requestLineGivesItsVariableTheResponse : Obligations.RequestLineGivesItsVariableTheResponse := by
  refine ⟨fun s v line rest c hi hp hc => ?_, fun s v line rest hi hp hbad => ?_, fun s v e rest d hi hp he => ?_,
    fun s v e rest w hi hp he => ?_, fun s v e rest hi hp he => ?_, fun s v e rest hi hp he => ?_⟩
  · have ha := action_request hc s.host.vars s.host.source v
    exact ⟨run_request hi hp ha 0, requestTrace_request hi hp ha⟩
  · exact step_refuse hi hp (action_request_outOfRange hbad _ _ _)
  · have ha := action_encodeOf he s.host.source v
    have hrun := run_request hi hp ha 0
    rw [answer_encodeRequest] at hrun
    exact ⟨hrun, encodeRequest_eq d ▸ requestTrace_request hi hp ha⟩
  · have ha := action_decodeOf he s.host.source v
    have hrun := run_request hi hp ha 0
    rw [answer_decodeRequest] at hrun
    exact ⟨hrun, requestTrace_request hi hp ha⟩
  · exact step_refuse hi hp (action_encodeOf_other he _ _)
  · exact step_refuse hi hp (action_decodeOf_other he _ _)

/-- Settles O49. -/
theorem heldValuesAreReadAndBound : Obligations.HeldValuesAreReadAndBound := by
  refine ⟨fun vars u v x => ?_, fun vars v r h => ?_, fun vars v f h => eval_field_other h f,
    fun s v e rest x hi hp he => step_assign hi hp (action_bind he _ _),
    fun s v e rest hi hp he => step_refuse hi hp (action_bind_nothing he _ _)⟩
  · simp only [Expr.eval, Vars.lookup_bind, eq_comm]
  · exact ⟨eval_field h .dataBits, eval_field h .syndromeBits, eval_field h .errorPosition,
      eval_field h .correctedCodeword⟩

/-- Settles O50. -/
theorem flipOperandsAreReadOrRefused : Obligations.FlipOperandsAreReadOrRefused :=
  ⟨fun vars _ h => eval_literal_lt vars h, fun _ _ _ => eval_read,
    fun _ _ _ _ _ _ hi hp hu h => step_refuse hi hp (action_flip_badIndex hu (eval_literal_ge _ h) _ _),
    fun _ _ _ _ _ _ hi hp hu h => step_refuse hi hp (action_flip_badIndex hu (eval_read_other h) _ _),
    fun _ _ _ _ _ hi hp hu => step_refuse hi hp (action_flip_noWord hu _ _ _)⟩

/-! ## Programs -/

theorem steps_of_request {st : Stmt} {vars : Vars} {src : Option DrawSource} {v : Var} {c : Cmd}
    (h : st.action vars src = .request v c) : st.steps = 3 := by
  cases st with
  | request | encodeOf | decodeOf => rfl
  | flip | draw | bind =>
    simp only [Stmt.action] at h
    split at h <;> cases h

theorem steps_of_assign {st : Stmt} {vars : Vars} {src src' : Option DrawSource} {v : Var} {x : HostValue}
    (h : st.action vars src = .assign v x src') : st.steps = 1 := by
  cases st with
  | request | encodeOf | decodeOf =>
    simp only [Stmt.action] at h
    split at h <;> cases h
  | flip | draw | bind => rfl

theorem eval_of_request {st : Stmt} {vars : Vars} {src : Option DrawSource} {v : Var} {c : Cmd}
    (h : st.action vars src = .request v c) :
    st.eval (vars, src) = some (vars.bind v (answer (decodeCmd c)).value, src) := by
  simp only [Stmt.eval, h]

theorem eval_of_assign {st : Stmt} {vars : Vars} {src src' : Option DrawSource} {v : Var} {x : HostValue}
    (h : st.action vars src = .assign v x src') : st.eval (vars, src) = some (vars.bind v x, src') := by
  simp only [Stmt.eval, h]

/-- A statement that has a value as a function runs on the machine to the state that holds it. -/
theorem run_stmt {s : State} {st : Stmt} {rest : List Stmt} {env : ProgramEnv} (hi : s.Idle)
    (hp : s.host.program = st :: rest) (he : st.eval (s.host.vars, s.host.source) = some env) :
    ∃ t : State, (∀ k, core.run (k + st.steps) s = core.run k t) ∧ t.Idle ∧ t.answers = s.answers ∧
      t.host = { s.host with program := rest, vars := env.1, source := env.2 } := by
  have hidle : ∀ (rsp : Option Response) (vars : Vars) (src : Option DrawSource),
      ({ s with rsp := rsp, host := { s.host with program := rest, vars := vars, source := src } } : State).Idle :=
    fun _ _ _ => ⟨hi.no_request, hi.no_others, hi.no_run, hi.not_waiting⟩
  cases ha : st.action s.host.vars s.host.source with
  | request v c =>
    cases (eval_of_request ha).symm.trans he
    rw [steps_of_request ha]
    exact ⟨_, run_request hi hp ha, hidle _ _ _, rfl, rfl⟩
  | assign v x src =>
    cases (eval_of_assign ha).symm.trans he
    rw [steps_of_assign ha]
    exact ⟨_, core_run_succ (step_assign hi hp ha), hidle _ _ _, rfl, rfl⟩
  | refuse r => simp only [Stmt.eval, ha, reduceCtorEq] at he

theorem run_program {s : State} {env : ProgramEnv} (p : List Stmt) (hi : s.Idle) (hp : s.host.program = p)
    (he : evalProgram (s.host.vars, s.host.source) p = some env) :
    ∃ t : State, core.run (programSteps p) s = .next t ∧ t.Idle ∧ t.answers = s.answers ∧
      t.host = { s.host with program := [], vars := env.1, source := env.2 } := by
  induction p generalizing s with
  | nil =>
    cases he
    exact ⟨s, rfl, hi, rfl, by simp only [← hp]⟩
  | cons st rest ih =>
    unfold evalProgram at he
    split at he
    next env' hst =>
      obtain ⟨u, hrun, hidle, hanswers, hhost⟩ := run_stmt hi hp hst
      obtain ⟨t, hrun', hidle', hanswers', hhost'⟩ := ih hidle (by rw [hhost]) (by simpa only [hhost] using he)
      refine ⟨t, ?_, hidle', hanswers'.trans hanswers, by rw [hhost', hhost]⟩
      rw [programSteps, List.map_cons, List.sum_cons, Nat.add_comm, hrun]
      exact hrun'
    next => cases he

/-- Settles O41, by induction on the program. -/
theorem programOnTheMachineIsItsFunction : Obligations.ProgramOnTheMachineIsItsFunction := by
  intro s env hi he
  obtain ⟨t, hrun, hidle, hanswers, hhost⟩ := run_program _ hi rfl he
  exact ⟨t, hrun, hidle.no_request, hidle.no_others, hanswers, hhost⟩

/-! ## Checked programs -/

theorem kind_answer_of_lt {c : Nat} (h : c < 256) :
    (answer (decodeCmd (BitVec.ofNat 8 c))).value.kind = (AsmLine.rawCmd c).kind := by
  have hbit : (BitVec.ofNat 8 c)[7] = decide (128 ≤ c) := by
    rw [← BitVec.getLsbD_eq_getElem, BitVec.getLsbD_ofNat, Nat.testBit_eq_decide_div_mod_eq]
    exact decide_eq_decide.2 (by omega)
  by_cases hc : c < 128
  · rw [answer_of_bit7_false (by simpa [hbit] using hc)]
    simp [Response.value, HostValue.kind, AsmLine.kind, hc]
  · rw [answer_of_bit7_true (by simpa [hbit] using hc)]
    simp [Response.value, HostValue.kind, AsmLine.kind, hc]

/-- A line in range gives a command word that is answered with the line's kind of response. -/
theorem assemble_kind {line : AsmLine} (h : line.wf = true) :
    ∃ c, assemble line = some c ∧ (answer (decodeCmd c)).value.kind = line.kind := by
  rcases assemble_of_inRange h with ⟨d, hkind, hd⟩ | ⟨w, hkind, hw⟩ | ⟨c, rfl, hc⟩
  · refine ⟨_, hd, ?_⟩
    rw [answer_encodeRequest, hkind]
    rfl
  · refine ⟨_, hw, ?_⟩
    rw [answer_decodeRequest, hkind]
    rfl
  · exact ⟨_, hc, kind_answer_of_lt (of_decide_eq_true h)⟩

theorem kind_read (f : Field) (r : DecodeResult) : (f.read r).kind = f.kind := by
  cases f <;> rfl

section

variable {vars : Vars} {sc : Scope} (hfits : vars.Fits sc)
include hfits

/-- What an expression reads is there, and of the kind the check gives it. -/
theorem eval_of_kind {e : Expr} {k : Kind} (h : e.kind? sc = some k) : ∃ x, e.eval vars = some x ∧ x.kind = k := by
  cases e with
  | var v => exact hfits v k h
  | field v f =>
    simp only [Expr.kind?, Option.ite_none_right_eq_some, Option.some.injEq] at h
    obtain ⟨hv, rfl⟩ := h
    obtain ⟨x, hx, hkind⟩ := hfits v .result hv
    cases x with
    | result r => exact ⟨f.read r, eval_field hx f, kind_read f r⟩
    | word | index | dataWord | syndrome | position => cases hkind

theorem eval_word {e : Expr} (h : e.kind? sc = some .word) : ∃ w, e.eval vars = some (.word w) := by
  obtain ⟨x, hx, hkind⟩ := eval_of_kind hfits h
  cases x with
  | word w => exact ⟨w, hx⟩
  | result | index | dataWord | syndrome | position => cases hkind

theorem eval_dataWord {e : Expr} (h : e.kind? sc = some .dataWord) : ∃ d, e.eval vars = some (.dataWord d) := by
  obtain ⟨x, hx, hkind⟩ := eval_of_kind hfits h
  cases x with
  | dataWord d => exact ⟨d, hx⟩
  | word | result | index | syndrome | position => cases hkind

theorem eval_index {x : IndexOperand} (h : x.wf sc = true) : ∃ i, x.eval vars = .ok i := by
  cases x with
  | literal i => exact ⟨_, eval_literal_lt vars (of_decide_eq_true h)⟩
  | read e =>
    obtain ⟨x, hx, hkind⟩ := eval_of_kind hfits (e := e) (by simpa [IndexOperand.wf] using h)
    cases x with
    | index i => exact ⟨i, eval_read hx⟩
    | word | result | dataWord | syndrome | position => cases hkind

/-- A checked statement has a value: it binds its target to a value of its kind, and the source stays. -/
theorem eval_stmt {src : Option DrawSource} (hsrc : src.isSome) {st : Stmt} {k : Kind} (h : st.kind? sc = some k) :
    ∃ (x : HostValue) (src' : Option DrawSource),
      st.eval (vars, src) = some (vars.bind st.target x, src') ∧ x.kind = k ∧ src'.isSome := by
  cases st with
  | request v line =>
    simp only [Stmt.kind?, Option.ite_none_right_eq_some, Option.some.injEq] at h
    obtain ⟨hwf, rfl⟩ := h
    obtain ⟨c, hc, hkind⟩ := assemble_kind hwf
    exact ⟨_, src, eval_of_request (action_request hc vars src v), hkind, hsrc⟩
  | encodeOf v e =>
    simp only [Stmt.kind?, Option.ite_none_right_eq_some, Option.some.injEq] at h
    obtain ⟨he, rfl⟩ := h
    obtain ⟨d, hd⟩ := eval_dataWord hfits he
    exact ⟨_, src, eval_of_request (action_encodeOf hd src v), by rw [answer_encodeRequest]; rfl, hsrc⟩
  | decodeOf v e =>
    simp only [Stmt.kind?, Option.ite_none_right_eq_some, Option.some.injEq] at h
    obtain ⟨he, rfl⟩ := h
    obtain ⟨w, hw⟩ := eval_word hfits he
    exact ⟨_, src, eval_of_request (action_decodeOf hw src v), by rw [answer_decodeRequest]; rfl, hsrc⟩
  | flip v u i =>
    simp only [Stmt.kind?, Option.ite_none_right_eq_some, Option.some.injEq] at h
    obtain ⟨⟨hu, hi⟩, rfl⟩ := h
    obtain ⟨w, hw⟩ := eval_word hfits hu
    obtain ⟨j, hj⟩ := eval_index hfits hi
    exact ⟨.word (w.flip j), src, eval_of_assign (action_flip hw hj src v), rfl, hsrc⟩
  | draw v =>
    cases h
    obtain ⟨source, rfl⟩ := Option.isSome_iff_exists.1 hsrc
    exact ⟨.index source.draw.1, some source.draw.2, rfl, rfl, rfl⟩
  | bind v e =>
    obtain ⟨x, hx, hkind⟩ := eval_of_kind hfits h
    exact ⟨x, src, eval_of_assign (action_bind hx src v), hkind, hsrc⟩

theorem Vars.Fits.bind {v : Var} {x : HostValue} {k : Kind} (hkind : x.kind = k) :
    (vars.bind v x).Fits ((v, k) :: sc) := by
  intro u k' hu
  simp only [Scope.lookup, Vars.lookup_bind] at hu ⊢
  split at hu
  next heq =>
    cases hu
    exact ⟨x, if_pos heq, hkind⟩
  next hne =>
    rw [if_neg hne]
    exact hfits u k' hu

end

/-- A checked program has a value. -/
theorem eval_program {sc : Scope} {vars : Vars} {src : Option DrawSource} (p : List Stmt) (hfits : vars.Fits sc)
    (hsrc : src.isSome) (h : programWf sc p = true) :
    ∃ env, evalProgram (vars, src) p = some env ∧ env.2.isSome := by
  induction p generalizing sc vars src with
  | nil => exact ⟨(vars, src), rfl, hsrc⟩
  | cons st rest ih =>
    unfold programWf at h
    split at h
    next k hk =>
      obtain ⟨x, src', heval, hkind, hsrc'⟩ := eval_stmt hfits hsrc hk
      simpa only [evalProgram, heval] using ih (hfits.bind hkind) hsrc' h
    next => cases h

/-- Settles O42: a checked program has a value, and the machine comes to it. -/
theorem wellFormedProgramsRunToTheirEnd : Obligations.WellFormedProgramsRunToTheirEnd := by
  intro s sc hi hsrc hfits hwf
  obtain ⟨env, he, hsome⟩ := eval_program _ hfits hsrc hwf
  obtain ⟨t, hrun, hidle, -, hhost⟩ := run_program _ hi rfl he
  refine ⟨t, hrun, hidle, ?_, ?_⟩
  · rw [hhost]
  · rw [hhost]
    exact hsome

end Sys2Proof.Machine
end

section
/-! The whole machine: where a step can fault, and what a step does to the response bus, to the records of a run and to
the outcome, each along what a step can do. -/

namespace Sys2Proof.Machine

/-- Where a step faults, the host reads the response bus: a run that finds no response of the kind it awaits, or a
program that finds none. -/
inductive FaultCase (s : State) : Prop where
  | noCodeword (r : RunState) (site : Site) (rest : List Site) (hr : s.host.run = some r) (ht : r.todo = site :: rest)
      (hp : r.phase = .awaitCodeword) (hq : ∀ cw, s.rsp ≠ some (.codeword cw))
  | noResult (r : RunState) (site : Site) (rest : List Site) (cw : Word7) (i : Fin 7) (rw : Word7)
      (hr : s.host.run = some r) (ht : r.todo = site :: rest) (hp : r.phase = .awaitResult cw i rw)
      (hq : ∀ dr, s.rsp ≠ some (.result dr))
  | noResponse (v : Var) (hw : s.host.waiting = some v) (hq : s.rsp = none)

theorem runStep_fault {r : RunState} {s : State} {f : Fault} (hr : s.host.run = some r)
    (h : runStep r s = .fault f) : FaultCase s := by
  unfold runStep at h
  split at h
  · cases h
  · rename_i site rest ht
    split at h
    · cases h
    · rename_i hp
      refine .noCodeword r site rest hr ht hp fun cw hq => ?_
      rw [State.readResponse_some s hq] at h
      cases h
    · rename_i cw i rw hp
      refine .noResult r site rest cw i rw hr ht hp fun dr hq => ?_
      rw [State.readResponse_some s hq] at h
      cases h

theorem collectInto_fault {v : Var} {s : State} {f : Fault} (hw : s.host.waiting = some v)
    (h : collectInto v s = .fault f) : FaultCase s := by
  refine .noResponse v hw ?_
  unfold collectInto at h
  split at h
  · cases h
  · rename_i g hread
    exact (s.readResponse_error hread).1

theorem runStmt_ne_fault (st : Stmt) (s : State) (f : Fault) : runStmt st s ≠ .fault f := by
  unfold runStmt
  split <;> simp

theorem startOrIdle_ne_fault (s : State) (f : Fault) : startOrIdle s ≠ .fault f := by
  unfold startOrIdle
  split
  · unfold startRun
    split
    · dsimp only
      split <;> simp
    · simp
  · simp

/-- The block does not fault, so a fault is the host's. -/
theorem step_fault {s : State} {f : Fault} (h : step s = .fault f) :
    s.cmd = none ∧ FaultCase s := by
  rcases hc : s.cmd with _ | c
  · rcases ho : s.others with _ | ⟨p, rest⟩
    · refine ⟨rfl, ?_⟩
      rw [step_host hc ho] at h
      unfold hostStep at h
      split at h
      · rename_i r hr
        exact runStep_fault hr h
      · split at h
        · rename_i v hw
          exact collectInto_fault hw h
        · split at h
          · exact absurd h (runStmt_ne_fault _ _ f)
          · exact absurd h (startOrIdle_ne_fault _ f)
    · rw [step_other hc ho] at h
      cases h
  · rw [step_request hc] at h
    cases h

/-- Settles O45: the invariant puts on the bus what each of the three cases does not find. -/
theorem coherentMachineNeverFaults : Obligations.CoherentMachineNeverFaults := by
  rintro s hinv ⟨f, hf⟩
  obtain ⟨hc, hcase⟩ := step_fault hf
  cases hcase with
  | noCodeword r site rest hr ht hp hq =>
    obtain ⟨-, hphase⟩ := (RunState.coherent_cons ht).1 (hinv.run_coherent r hr)
    rw [hp, hc] at hphase
    rcases hphase with hcmd | ⟨-, hrsp⟩
    · cases hcmd
    · exact hq _ hrsp
  | noResult r site rest cw i rw hr ht hp hq =>
    obtain ⟨-, hphase⟩ := (RunState.coherent_cons ht).1 (hinv.run_coherent r hr)
    rw [hp, hc] at hphase
    obtain ⟨-, -, hcmd | ⟨-, hrsp⟩⟩ := hphase
    · cases hcmd
    · exact hq _ hrsp
  | noResponse v hw hq =>
    have hanswered := hinv.waiting_answered v hw
    rw [hc, hq] at hanswered
    simp at hanswered

/-- Settles O46: every host step leaves the response bus as it was or empties it. -/
theorem onlyTheBlockResponds : Obligations.OnlyTheBlockResponds := by
  intro s t r hstep ht hs
  cases step_cases hstep with
  | answered c hc =>
    cases ht
    exact ⟨c, hc, rfl, rfl⟩
  | served | runEnded | presented | requested | assigned | tooSmall | runStarted | idled => exact absurd ht hs
  | flipped | recorded | collected => cases ht

theorem finishNibble_records (r : RunState) (site : Site) (rest : List Site) (cw : Word7) (i : Fin 7) (rw : Word7)
    (dr : DecodeResult) :
    (r.finishNibble site rest cw i rw dr).results.records =
      r.results.records ++ [⟨site.x, site.y, r.half.selector, r.dataWord site, cw, i, rw, dr⟩] := by
  cases hh : r.half with
  | high =>
    rw [RunState.finishNibble_of_high hh]
    rfl
  | low rwHigh drHigh =>
    rw [RunState.finishNibble_of_low hh]
    rfl

/-- Settles O47: only the step that reads a DECODE result touches the records, and it adds one. -/
theorem recordsAreOnlyAdded : Obligations.RecordsAreOnlyAdded := by
  intro s t r r' hrun hstep hrun'
  cases step_cases hstep with
  | answered | served =>
    cases hrun.symm.trans hrun'
    exact .inl rfl
  | runEnded => cases hrun'
  | presented q site rest hc ho hr =>
    cases hrun.symm.trans hr
    cases hrun'
    exact .inl rfl
  | flipped q site rest cw hc ho hr =>
    cases hrun.symm.trans hr
    cases hrun'
    exact .inl rfl
  | recorded q site rest cw i rw dr hc ho hr =>
    cases hrun.symm.trans hr
    cases hrun'
    exact .inr ⟨_, finishNibble_records ..⟩
  | collected | requested | assigned | tooSmall | runStarted | idled =>
    cases hrun.symm.trans ‹s.host.run = none›

/-- Settles O48: of what a step can do, only the end of a run and the two starts write the outcome. -/
theorem outcomeComesOnlyFromARun : Obligations.OutcomeComesOnlyFromARun := by
  intro s t hstep hne
  cases step_cases hstep with
  | answered | served | presented | flipped | recorded | collected | requested | assigned | idled =>
    exact absurd rfl hne
  | runEnded r hc ho hr ht => exact .inl ⟨r, hr, ht, rfl, rfl⟩
  | tooSmall raw sel src img rect hc ho hr hw hp hi hs hsrc him hre hd =>
    have hready : s.ReadyToRun img rect src := ⟨⟨hc, ho, hr, hw⟩, hp, ⟨raw, hi, him⟩, ⟨sel, hs, hre⟩, hsrc⟩
    exact .inr ⟨img, rect, src, hready, .inr ⟨hd, rfl, rfl⟩⟩
  | runStarted raw sel src img rect hc ho hr hw hp hi hs hsrc him hre hd =>
    have hready : s.ReadyToRun img rect src := ⟨⟨hc, ho, hr, hw⟩, hp, ⟨raw, hi, him⟩, ⟨sel, hs, hre⟩, hsrc⟩
    exact .inr ⟨img, rect, src, hready, .inl ⟨hd, rfl, rfl⟩⟩

end Sys2Proof.Machine
end

section
/-! Other requesters (R47, R160): the block answers them one after another, and with their requests and responses taken
away the machine does what it did before. -/

namespace Sys2Proof.Machine

theorem core_run_fault {s : State} {f : Fault} (h : step s = .fault f) : core.run 1 s = .fault f := by
  have h' : core.step s = .fault f := h
  simp only [Host.Core.run, h']

theorem core_run_refused {s : State} {r : Refusal} (h : step s = .refused r) : core.run 1 s = .refused r := by
  have h' : core.step s = .refused r := h
  simp only [Host.Core.run, h']

/-- The block answers all requests that wait, oldest first. -/
theorem run_others (ps : List OtherRequest) {s : State} (hc : s.cmd = none) (ho : s.others = ps) :
    core.run ps.length s = .next { s with others := [], answers := s.answers ++ ps.map OtherRequest.answer } := by
  induction ps generalizing s with
  | nil =>
    obtain ⟨cmd, rsp, host, others, answers⟩ := s
    cases ho
    simp [Host.Core.run]
  | cons p ps ih =>
    rw [List.length_cons, core_run_succ (step_other hc ho), ih (by exact hc) rfl]
    simp

/-- Settles O51. -/
theorem otherRequestersGetTheirOwnResponses : Obligations.OtherRequestersGetTheirOwnResponses := by
  refine ⟨fun s p rest hc ho => step_other hc ho, fun s hc => run_others s.others hc rfl, fun s q c hc ho hq => ?_,
    fun s q hq => ?_⟩
  · have ho' : (s.request ⟨q, c⟩).others = [⟨q, c⟩] := by rw [State.request_others, ho, List.nil_append]
    refine ⟨_, step_other hc ho', ?_⟩
    simp only [State.readAnswer, State.request_answers, OtherRequest.answer, takeAnswer_append hq]
    rw [← ho]
    rfl
  · simp only [State.readAnswer, takeAnswer_none hq]

/-! ## The host alone -/

/-- An outcome with the other requesters taken away. -/
def aloneOutcome : Host.Outcome State Fault Refusal → Host.Outcome State Fault Refusal
  | .next t => .next t.alone
  | .fault f => .fault f
  | .refused r => .refused r

/-- A step that is not the answer to another requester is a step of the machine alone, and leaves the others' requests
and responses as they are. -/
theorem step_alone {s : State} (h : s.cmd ≠ none ∨ s.others = []) :
    step s.alone = aloneOutcome (step s) ∧
      ∀ t, step s = .next t → t.others = s.others ∧ t.answers = s.answers := by
  rcases hc : s.cmd with _ | c
  · have ho : s.others = [] := h.resolve_left fun hne => hne hc
    rw [step_host (s := s.alone) hc rfl, step_host hc ho]
    exact ⟨hostStep_among s [] [], fun t => hostStep_others⟩
  · rw [step_request (s := s.alone) hc, step_request hc]
    refine ⟨rfl, fun t ht => ?_⟩
    cases ht
    exact ⟨rfl, rfl⟩

/-- The responses of other requesters, those given and those still due. -/
def State.due (s : State) : List OtherAnswer := s.answers ++ s.others.map OtherRequest.answer

/-- A step answers another requester, and then it is no step of the machine alone, or it is one, and then it
answers no other requester. -/
theorem step_among (s : State) :
    (∃ t, step s = .next t ∧ t.alone = s.alone ∧ t.due = s.due ∧ t.answers.length = s.answers.length + 1) ∨
    (step s.alone = aloneOutcome (step s) ∧
      ∀ t, step s = .next t → t.due = s.due ∧ t.answers.length = s.answers.length) := by
  by_cases h : s.cmd ≠ none ∨ s.others = []
  · obtain ⟨hstep, hkeep⟩ := step_alone h
    refine .inr ⟨hstep, fun t ht => ?_⟩
    obtain ⟨ho, ha⟩ := hkeep t ht
    exact ⟨by rw [State.due, State.due, ho, ha], by rw [ha]⟩
  · obtain ⟨hc, hne⟩ := not_or.1 h
    obtain ⟨p, rest, ho⟩ := List.exists_cons_of_ne_nil hne
    refine .inl ⟨_, step_other (not_not.1 hc) ho, rfl, ?_, by simp⟩
    simp [State.due, ho]

theorem due_foldl_request (ps : List OtherRequest) (s : State) :
    (ps.foldl State.request s).due = s.due ++ ps.map OtherRequest.answer := by
  rw [State.foldl_request, State.due, State.due, List.map_append, List.append_assoc]

theorem alone_foldl_request (ps : List OtherRequest) (s : State) : (ps.foldl State.request s).alone = s.alone := by
  rw [State.foldl_request]
  rfl

theorem answers_foldl_request (ps : List OtherRequest) (s : State) :
    (ps.foldl State.request s).answers = s.answers := by
  rw [State.foldl_request]

/-- However requests arrive, the machine alone comes in some of the steps to the same outcome; the other steps each give
a response, and the responses given and due are those of all requests. -/
theorem runAmong_alone (arrivals : List (List OtherRequest)) (s : State) :
    ∃ k, k ≤ arrivals.length ∧ core.run k s.alone = aloneOutcome (runAmong arrivals s) ∧
      ∀ t, runAmong arrivals s = .next t →
        t.due = s.due ++ arrivals.flatten.map OtherRequest.answer ∧
        k + t.answers.length = arrivals.length + s.answers.length := by
  induction arrivals generalizing s with
  | nil =>
    refine ⟨0, le_rfl, rfl, fun t ht => ?_⟩
    cases ht
    simp
  | cons ps more ih =>
    have hdue := due_foldl_request ps s
    have halone := alone_foldl_request ps s
    have hanswers := answers_foldl_request ps s
    unfold runAmong
    rw [List.flatten_cons, List.map_append, ← List.append_assoc, ← hdue, ← halone, ← hanswers, List.length_cons]
    generalize ps.foldl State.request s = u
    rcases step_among u with ⟨t, hstep, htAlone, htDue, htLen⟩ | ⟨hstepAlone, hkeep⟩
    · obtain ⟨k, hk, hrun, hnext⟩ := ih t
      rw [hstep, ← htAlone, ← htDue]
      refine ⟨k, by omega, hrun, fun v hv => ?_⟩
      obtain ⟨hvDue, hvLen⟩ := hnext v hv
      exact ⟨hvDue, by omega⟩
    · cases hstep : step u with
      | next t =>
        obtain ⟨k, hk, hrun, hnext⟩ := ih t
        obtain ⟨htDue, htLen⟩ := hkeep t hstep
        rw [hstep] at hstepAlone
        rw [← htDue, ← htLen]
        refine ⟨k + 1, by omega, (core_run_succ hstepAlone k).trans hrun, fun v hv => ?_⟩
        obtain ⟨hvDue, hvLen⟩ := hnext v hv
        exact ⟨hvDue, by omega⟩
      | fault f =>
        rw [hstep] at hstepAlone
        exact ⟨1, by omega, core_run_fault hstepAlone, fun v hv => nomatch hv⟩
      | refused r =>
        rw [hstep] at hstepAlone
        exact ⟨1, by omega, core_run_refused hstepAlone, fun v hv => nomatch hv⟩

/-- Settles O52, by induction on the arrivals. -/
theorem interleavedRequestsDisturbNobody : Obligations.InterleavedRequestsDisturbNobody := by
  intro arrivals s
  obtain ⟨k, hk, hrun, hnext⟩ := runAmong_alone arrivals s
  refine ⟨fun t ht => ?_, fun f hf => ⟨k, hk, ?_⟩, fun r hr => ⟨k, hk, ?_⟩⟩
  · obtain ⟨hdue, hlen⟩ := hnext t ht
    rw [ht] at hrun
    rw [List.map_append, ← List.append_assoc]
    exact ⟨hdue, k, hrun, hlen⟩
  · rw [hrun, hf]
    rfl
  · rw [hrun, hr]
    rfl

end Sys2Proof.Machine
end
